-- ==== Sys2Proof/Word.lean ====
section
/-! DEFINITION. The word types of the machine (00_scope.md R4, R6). -/

namespace Sys2Proof

/-- A byte of memory or of the serial link (R30). -/
abbrev Byte := BitVec 8

/-- A 16-bit value: the `len` field and the remaining count (R15, R54). -/
abbrev Half := BitVec 16

/-- A 32-bit value: a register slot, a word of a record, an operand in memory (R4, R11, R51). -/
abbrev Word := BitVec 32

end Sys2Proof
end

