-- ==== Sys2Proof/Config.lean ====
section
/-! DEFINITION. The configuration: every implementation parameter of 00_scope.md R4 whose value is a decision of
92_eei_decisions.md, each a field of its own at the default the spec gives it (notes/assumptions/13.md). The parameters
R4 fixes from the source are not configuration: XLEN is the width of `Word`, NREG the type `Slot`, RET_DEPTH the return
slot of State, NKIND the constructors of `Kind`, the 16-bit count and `len` the type `Half`. The machine's only
unconstrained values, the received bytes, are inputs and stand in the schedule, so no constant here is opaque. -/

namespace Sys2Proof

/-- The orders in which the bytes of a word can stand in memory (D3). -/
inductive ByteOrder where
  | little
  | big
deriving DecidableEq, Repr

/-- The kinds of instruction, in the order of R55. -/
inductive Kind where
  | xfer
  | xfers
  | ldw
  | ldwr
  | ldh
  | stw
  | sth
  | add
  | and
  | shr
  | shl
  | br
  | brz
  | brnz
  | jmp
  | jz
  | jnz
  | unlk
deriving DecidableEq, Repr

namespace Config

/-- `AW`, the width of a reference, of `POS` and of `RS_POS` (R4, D1). -/
abbrev addressWidth : Nat := 32

/-- The width of the transfer-error counter (R4, D32). -/
abbrev errorCounterWidth : Nat := 32

/-- `ENDIAN`, the byte order of every multi-byte access (R4, R33, D3). -/
def byteOrder : ByteOrder := .little

/-- `INSTR_BYTES`, the size of one instruction record (R4, R50, D5). -/
def instrBytes : BitVec addressWidth := 12

/-- `NULL`, the absent reference (R4, R31, D2). -/
def null : BitVec addressWidth := 0

/-- The kind codes (R4, R55, D6). -/
def kindCode : Kind → Byte
  | .xfer => 0#8
  | .xfers => 1#8
  | .ldw => 2#8
  | .ldwr => 3#8
  | .ldh => 4#8
  | .stw => 5#8
  | .sth => 6#8
  | .add => 7#8
  | .and => 8#8
  | .shr => 9#8
  | .shl => 10#8
  | .br => 11#8
  | .brz => 12#8
  | .brnz => 13#8
  | .jmp => 14#8
  | .jz => 15#8
  | .jnz => 16#8
  | .unlk => 17#8

/-- The register identifier of R0 (R4, R53, D7). -/
def codeR0 : Byte := 0x00#8

/-- The register identifier of R1 (R4, R53, D7). -/
def codeR1 : Byte := 0x01#8

/-- The register identifier NONE (R4, R53, D7). -/
def codeNone : Byte := 0xFF#8

/-- `EXIT_OK`, the "exit successfully" sentinel, +32767 (R4, R59, D9). -/
def exitOk : Half := 0x7FFF#16

/-- `EXIT_FAIL`, the "exit with failure" sentinel, -32768 (R4, R59, D9). -/
def exitFail : Half := 0x8000#16

/-- The reset level of the select line, false for 0 (R4, R25, D36). -/
def selectAtReset : Bool := false

/-- The mask of an absent mask reference, all ones (R116, R140, D26). -/
def defaultMask : Word := 0xFFFFFFFF#32

end Config

/-- An address: a reference, `POS`, `RS_POS` (R4, R30). -/
abbrev Address := BitVec Config.addressWidth

/-- A count of transfer-error events (R4, R20). -/
abbrev ErrorCount := BitVec Config.errorCounterWidth

end Sys2Proof
end

