-- ==== Sys2Proof/Syntax.lean ====
section
/-! DEFINITION. The instruction set: eighteen kinds, one constructor for each row of spec/opcode_table.json
(30_encoding.md R55). A constructor carries the fields its kind gives a meaning (R57); ignored fields of a record are
dropped by the decoder (notes/assumptions/23.md). -/

namespace Sys2Proof

/-- The two slots of the Register File (R11). -/
inductive Slot where
  | r0
  | r1
deriving DecidableEq, Repr

/-- A register identifier as the 8-bit `reg` field names it (R53): a slot, NONE (0xFF), or one of the unassigned
codes 0x02 to 0xFE, which the hardware does not reject. -/
inductive RegId where
  | slot (i : Slot)
  | none
  | unassigned (code : Byte)
deriving DecidableEq, Repr

/-- The instructions. `len`, `delta`, `amount`, `count` and `dist` are the 16-bit `len` field in the use its kind makes
of it (R54, R57); `src`, `dst`, `target` and `mask` are references, 0 meaning absent (R31, R56). -/
inductive Instr where
  | xfer (reg : RegId) (len : Half) (src dst : Address)
  | xfers (reg : RegId) (len : Half) (src dst : Address)
  | ldw (reg : RegId) (src dst : Address)
  | ldwr (reg : RegId) (sourceId : Half)
  | ldh (reg : RegId) (src dst : Address)
  | stw (reg : RegId) (src : Address)
  | sth (reg : RegId) (src : Address)
  | add (reg : RegId) (delta : Half)
  | and (reg : RegId) (mask : Address)
  | shr (reg : RegId) (amount : Half)
  | shl (reg : RegId) (amount : Half)
  | br (count : Half) (target : Address)
  | brz (reg : RegId) (count : Half) (target : Address)
  | brnz (reg : RegId) (count : Half) (target : Address)
  | jmp (dist : Half)
  | jz (reg : RegId) (dist : Half) (mask : Address)
  | jnz (reg : RegId) (dist : Half) (mask : Address)
  | unlk (reg : RegId)
deriving DecidableEq, Repr

end Sys2Proof
end

