-- ==== Sys2Proof/WellFormed.lean ====
section
/-! DEFINITION. Well-formed instructions: exactly the terms that some record decodes to. The encoding has no illegal
operand (30_encoding.md R61), so the only check is that an unassigned register identifier is one of the codes R53 leaves
unassigned. -/

namespace Sys2Proof

/-- An identifier is well formed when an unassigned code is not the code of R0, R1 or NONE (R53). -/
def RegId.wellFormed : RegId → Bool
  | .slot _ => true
  | .none => true
  | .unassigned code => code != Config.codeR0 && code != Config.codeR1 && code != Config.codeNone

/-- An instruction is well formed when its register identifier is (R53, R61). -/
def Instr.wellFormed : Instr → Bool
  | .xfer reg _ _ _ => reg.wellFormed
  | .xfers reg _ _ _ => reg.wellFormed
  | .ldw reg _ _ => reg.wellFormed
  | .ldwr reg _ => reg.wellFormed
  | .ldh reg _ _ => reg.wellFormed
  | .stw reg _ => reg.wellFormed
  | .sth reg _ => reg.wellFormed
  | .add reg _ => reg.wellFormed
  | .and reg _ => reg.wellFormed
  | .shr reg _ => reg.wellFormed
  | .shl reg _ => reg.wellFormed
  | .br _ _ => true
  | .brz reg _ _ => reg.wellFormed
  | .brnz reg _ _ => reg.wellFormed
  | .jmp _ => true
  | .jz reg _ _ => reg.wellFormed
  | .jnz reg _ _ => reg.wellFormed
  | .unlk reg => reg.wellFormed

end Sys2Proof
end

