-- ==== Sys2Proof/Decode.lean ====
section
/-! DEFINITION. The decoder, total on any bytes and rejecting by name, and after it the encoder, both written from the
record layout of 30_encoding.md R50 to R57. -/

namespace Sys2Proof

/-- The five fields of an instruction record (R51). -/
structure Record where
  kind : Byte
  reg : Byte
  len : Half
  src : Word
  dst : Word
deriving DecidableEq, Repr

/-- Why bytes do not decode: fewer than the twelve of a record, or a kind code outside 0 to 17 (R60). -/
inductive DecodeError where
  | truncated
  | invalidKind (code : Byte)
deriving DecidableEq, Repr

/-- Four bytes, lowest address first, as a word (R33). -/
def wordOfBytes (b0 b1 b2 b3 : Byte) : Word :=
  match Config.byteOrder with
  | .little => b3 ++ b2 ++ b1 ++ b0
  | .big => b0 ++ b1 ++ b2 ++ b3

/-- Two bytes, lowest address first, as a half-word (R33). -/
def halfOfBytes (b0 b1 : Byte) : Half :=
  match Config.byteOrder with
  | .little => b1 ++ b0
  | .big => b0 ++ b1

/-- Bits `8k+7:8k` of a word (R33, R102). -/
def byteOfWord (w : Word) (k : Nat) : Byte := w.extractLsb' (8 * k) 8

/-- The four bytes of a word in memory, lowest address first (R33). -/
def bytesOfWord (w : Word) : List Byte :=
  match Config.byteOrder with
  | .little => [byteOfWord w 0, byteOfWord w 1, byteOfWord w 2, byteOfWord w 3]
  | .big => [byteOfWord w 3, byteOfWord w 2, byteOfWord w 1, byteOfWord w 0]

/-- The two bytes of a half-word in memory, lowest address first (R33). -/
def bytesOfHalf (v : Half) : List Byte :=
  match Config.byteOrder with
  | .little => [v.extractLsb' 0 8, v.extractLsb' 8 8]
  | .big => [v.extractLsb' 8 8, v.extractLsb' 0 8]

/-- The address in a 32-bit field or register (R51, R56, R91). -/
def addressOfWord (w : Word) : Address := w.setWidth Config.addressWidth

/-- The 32-bit field of a record that holds an address (R51, R56). -/
def wordOfAddress (a : Address) : Word := a.setWidth 32

/-- Every kind, in the order of R55. -/
def Kind.all : List Kind :=
  [.xfer, .xfers, .ldw, .ldwr, .ldh, .stw, .sth, .add, .and, .shr, .shl, .br, .brz, .brnz, .jmp, .jz, .jnz, .unlk]

/-- The kind of a code, none for a code outside the defined set (R55, R60). -/
def Kind.ofCode (code : Byte) : Option Kind := Kind.all.find? fun k => Config.kindCode k == code

/-- The fields of the words `W0`, `W1`, `W2` (R51, R52). -/
def Record.ofWords (w0 w1 w2 : Word) : Record where
  kind := w0.extractLsb' 0 8
  reg := w0.extractLsb' 8 8
  len := w0.extractLsb' 16 16
  src := w1
  dst := w2

/-- The register identifier of an 8-bit code (R53). -/
def RegId.ofCode (code : Byte) : RegId :=
  if code = Config.codeR0 then .slot .r0
  else if code = Config.codeR1 then .slot .r1
  else if code = Config.codeNone then .none
  else .unassigned code

/-- The instruction of a record, by its kind code alone (R55, R57, R80). -/
def decodeRecord (r : Record) : Except DecodeError Instr :=
  match Kind.ofCode r.kind with
  | some .xfer => .ok (.xfer (.ofCode r.reg) r.len (addressOfWord r.src) (addressOfWord r.dst))
  | some .xfers => .ok (.xfers (.ofCode r.reg) r.len (addressOfWord r.src) (addressOfWord r.dst))
  | some .ldw => .ok (.ldw (.ofCode r.reg) (addressOfWord r.src) (addressOfWord r.dst))
  | some .ldwr => .ok (.ldwr (.ofCode r.reg) r.len)
  | some .ldh => .ok (.ldh (.ofCode r.reg) (addressOfWord r.src) (addressOfWord r.dst))
  | some .stw => .ok (.stw (.ofCode r.reg) (addressOfWord r.src))
  | some .sth => .ok (.sth (.ofCode r.reg) (addressOfWord r.src))
  | some .add => .ok (.add (.ofCode r.reg) r.len)
  | some .and => .ok (.and (.ofCode r.reg) (addressOfWord r.src))
  | some .shr => .ok (.shr (.ofCode r.reg) r.len)
  | some .shl => .ok (.shl (.ofCode r.reg) r.len)
  | some .br => .ok (.br r.len (addressOfWord r.src))
  | some .brz => .ok (.brz (.ofCode r.reg) r.len (addressOfWord r.src))
  | some .brnz => .ok (.brnz (.ofCode r.reg) r.len (addressOfWord r.src))
  | some .jmp => .ok (.jmp r.len)
  | some .jz => .ok (.jz (.ofCode r.reg) r.len (addressOfWord r.src))
  | some .jnz => .ok (.jnz (.ofCode r.reg) r.len (addressOfWord r.src))
  | some .unlk => .ok (.unlk (.ofCode r.reg))
  | none => .error (.invalidKind r.kind)

/-- The first instruction of a list of bytes, lowest address first, and the bytes after it (R50, R51). -/
def decode : List Byte → Except DecodeError (Instr × List Byte)
  | b0 :: b1 :: b2 :: b3 :: b4 :: b5 :: b6 :: b7 :: b8 :: b9 :: b10 :: b11 :: rest =>
    match decodeRecord (.ofWords (wordOfBytes b0 b1 b2 b3) (wordOfBytes b4 b5 b6 b7) (wordOfBytes b8 b9 b10 b11)) with
    | .ok i => .ok (i, rest)
    | .error e => .error e
  | _ => .error .truncated

/-- The 8-bit code of a register identifier (R53). -/
def RegId.toCode : RegId → Byte
  | .slot .r0 => Config.codeR0
  | .slot .r1 => Config.codeR1
  | .none => Config.codeNone
  | .unassigned code => code

/-- The record of an instruction, with 0xFF, 0, 0 and 0 in the fields its kind ignores (R55, R57, R62). -/
def encodeRecord : Instr → Record
  | .xfer reg len src dst => ⟨Config.kindCode .xfer, reg.toCode, len, wordOfAddress src, wordOfAddress dst⟩
  | .xfers reg len src dst => ⟨Config.kindCode .xfers, reg.toCode, len, wordOfAddress src, wordOfAddress dst⟩
  | .ldw reg src dst => ⟨Config.kindCode .ldw, reg.toCode, 0#16, wordOfAddress src, wordOfAddress dst⟩
  | .ldwr reg sourceId => ⟨Config.kindCode .ldwr, reg.toCode, sourceId, 0#32, 0#32⟩
  | .ldh reg src dst => ⟨Config.kindCode .ldh, reg.toCode, 0#16, wordOfAddress src, wordOfAddress dst⟩
  | .stw reg src => ⟨Config.kindCode .stw, reg.toCode, 0#16, wordOfAddress src, 0#32⟩
  | .sth reg src => ⟨Config.kindCode .sth, reg.toCode, 0#16, wordOfAddress src, 0#32⟩
  | .add reg delta => ⟨Config.kindCode .add, reg.toCode, delta, 0#32, 0#32⟩
  | .and reg mask => ⟨Config.kindCode .and, reg.toCode, 0#16, wordOfAddress mask, 0#32⟩
  | .shr reg amount => ⟨Config.kindCode .shr, reg.toCode, amount, 0#32, 0#32⟩
  | .shl reg amount => ⟨Config.kindCode .shl, reg.toCode, amount, 0#32, 0#32⟩
  | .br count target => ⟨Config.kindCode .br, Config.codeNone, count, wordOfAddress target, 0#32⟩
  | .brz reg count target => ⟨Config.kindCode .brz, reg.toCode, count, wordOfAddress target, 0#32⟩
  | .brnz reg count target => ⟨Config.kindCode .brnz, reg.toCode, count, wordOfAddress target, 0#32⟩
  | .jmp dist => ⟨Config.kindCode .jmp, Config.codeNone, dist, 0#32, 0#32⟩
  | .jz reg dist mask => ⟨Config.kindCode .jz, reg.toCode, dist, wordOfAddress mask, 0#32⟩
  | .jnz reg dist mask => ⟨Config.kindCode .jnz, reg.toCode, dist, wordOfAddress mask, 0#32⟩
  | .unlk reg => ⟨Config.kindCode .unlk, reg.toCode, 0#16, 0#32, 0#32⟩

/-- The words `W0`, `W1`, `W2` of a record (R51). -/
def Record.toWords (r : Record) : Word × Word × Word := (r.len ++ r.reg ++ r.kind, r.src, r.dst)

/-- The words of an instruction (R51). -/
def encodeWords (i : Instr) : Word × Word × Word := (encodeRecord i).toWords

/-- The twelve bytes of an instruction, lowest address first (R50, R51). -/
def encode (i : Instr) : List Byte :=
  bytesOfWord (encodeWords i).1 ++ bytesOfWord (encodeWords i).2.1 ++ bytesOfWord (encodeWords i).2.2

/-- The twelve bytes, lowest address first, of the record whose low `nbits` bits are those of `w` and whose other bits
are 0, bit 0 being the least significant bit of `W0` (R51, R64). -/
def tableBytes (nbits w : Nat) : List Byte :=
  let v := w % 2 ^ nbits
  bytesOfWord (.ofNat 32 v) ++ bytesOfWord (.ofNat 32 (v / 2 ^ 32)) ++ bytesOfWord (.ofNat 32 (v / 2 ^ 64))

/-- The instruction the decoder reads from bits numbered as spec/opcode_table.json numbers them (R64). -/
def decodeTableWord (nbits w : Nat) : Option Instr :=
  match decode (tableBytes nbits w) with
  | .ok (i, _) => some i
  | .error _ => none

end Sys2Proof
end

