-- ==== Sys2Proof/Machine/State.lean ====
section
/-! DEFINITION. The state of the machine as plain data: the block's state (10_state.md R10), memory, and the model's own
fields that hold the other agents of R5. -/

namespace Sys2Proof.Machine

/-- `STATUS` (R17). -/
inductive Status where
  | idle
  | busy
deriving DecidableEq, Repr

/-- `PHASE`, the scheduler's state (R18). -/
inductive Phase where
  | idle
  | run
  | wait
deriving DecidableEq, Repr

/-- `RESULT`, the terminal outcome of the last program (R19). -/
inductive Result where
  | none
  | finished
  | error
deriving DecidableEq, Repr

/-- `ERRKIND`, the closed list of error kinds (R175), in the order of their codes 0 to 5. -/
inductive ErrKind where
  | none
  | invalidInstructionKind
  | nullProgram
  | invalidRegisterReference
  | explicitFailureExit
  | transferHardwareError
deriving DecidableEq, Repr

/-- The code the host reads from `STATUS` (R10). -/
def Status.code : Status → BitVec 1
  | .idle => 0#1
  | .busy => 1#1

/-- The code of `PHASE` (R10). -/
def Phase.code : Phase → BitVec 2
  | .idle => 0#2
  | .run => 1#2
  | .wait => 2#2

/-- The code the host reads from `RESULT` (R10). -/
def Result.code : Result → BitVec 2
  | .none => 0#2
  | .finished => 1#2
  | .error => 2#2

/-- The code the host reads from `ERRKIND` (R175). -/
def ErrKind.code : ErrKind → BitVec 3
  | .none => 0#3
  | .invalidInstructionKind => 1#3
  | .nullProgram => 2#3
  | .invalidRegisterReference => 3#3
  | .explicitFailureExit => 4#3
  | .transferHardwareError => 5#3

/-- An endpoint of a transfer: `absent`, `mem(a)` or `reg(i)` (R160). -/
inductive Endpoint where
  | absent
  | mem (a : Address)
  | reg (i : Slot)
deriving DecidableEq, Repr

/-- The arguments of a `TE_Start` (R22, R160). -/
structure Transfer where
  src : Endpoint
  dst : Endpoint
  n : Half
deriving DecidableEq, Repr

/-- The Transfer Engine's own view of the transfer it is doing (the model's own type, notes/assumptions/14.md). -/
structure Job where
  /-- The transfer it was asked to do. -/
  req : Transfer
  /-- The bytes read from the transmit endpoint so far, each with its index, in any order (R40, R161). -/
  taken : List (Nat × Byte)
  /-- How many bytes have gone on the link: bytes 0 to `sent - 1`, in increasing order (R161). -/
  sent : Nat
  /-- The bytes received from the link so far, byte `k` at place `k` (R161). -/
  arrived : List Byte
  /-- The indices of the received bytes that were written to the receive endpoint, in any order (R40, R161). -/
  stored : List Nat
  /-- A `TE_ERR` was raised on this transfer (U9). -/
  erred : Bool
deriving DecidableEq, Repr

/-- One turn of the schedule (the model's own type, notes/assumptions/1.md): which agent of R5 moves next, and the data
it brings. An agent whose step is not enabled passes. -/
inductive Turn where
  /-- The interpreter takes its dispatch step, if it has one (R71). -/
  | dispatch
  /-- The host issues `SUBMIT(program, count)` (R150). -/
  | submit (program : Address) (count : Half)
  /-- The host reads `STATUS`, `RESULT` and `ERRKIND` (R154). -/
  | poll
  /-- The host writes one byte of memory (R44). -/
  | hostWrite (a : Address) (b : Byte)
  /-- The Transfer Engine reads byte `k` of the transmit endpoint (R161). -/
  | teTake (k : Nat)
  /-- The Transfer Engine puts its next byte on the link (R161); `alt` is what it sends instead when it has raised an
  error (U9). -/
  | teSend (alt : Byte)
  /-- The Transfer Engine receives its next byte from the link; `rx` is the free input of R163. -/
  | teReceive (rx : Byte)
  /-- The Transfer Engine writes the received byte `k` to the receive endpoint (R161). -/
  | teStore (k : Nat)
  /-- The Transfer Engine raises `TE_DONE`, which it does only after its last byte (R164). -/
  | teDone
  /-- The Transfer Engine raises `TE_ERR` (R165). -/
  | teErr
  /-- `TE_ERR` and `TE_DONE` arrive together (R182). -/
  | teErrDone
  /-- A `TE_DONE` arrives that the Transfer Engine's guarantee of R166 forbids (U13, R200). -/
  | strayDone
  /-- The block is reset (R200). -/
  | reset
  /-- The platform resets the Transfer Engine (R200). -/
  | teReset
deriving DecidableEq, Repr

/-- What an agent outside the interpreter can observe (the model's own type, notes/assumptions/19.md). -/
inductive Output where
  /-- `SUBMIT` answered `ok` (R151). -/
  | submitOk
  /-- `SUBMIT` answered `busy` (R152). -/
  | submitBusy
  /-- The terminal event (R155). -/
  | terminal (outcome : Result) (kind : ErrKind)
  /-- What a host read returned (R154). -/
  | polled (status : Status) (result : Result) (kind : ErrKind)
  /-- The byte the Transfer Engine put on the link as the `k`-th of its transfer (R161). -/
  | tx (k : Nat) (b : Byte)
deriving DecidableEq, Repr

/-- Memory as a list of cells in canonical form (`Memory.wf` of Machine/Memory.lean). -/
abbrev Memory := List Host.Cell

/-- The whole state. -/
structure State where
  /-- `x[0]` (R11). -/
  x0 : Word
  /-- `x[1]` (R11). -/
  x1 : Word
  /-- `POS` (R14). -/
  pos : Address
  /-- `REM`, signed (R15). -/
  rem : Half
  /-- `RS_VALID` (R16). -/
  rsValid : Bool
  /-- `RS_REM`, signed (R16). -/
  rsRem : Half
  /-- `RS_POS` (R16). -/
  rsPos : Address
  /-- `STATUS` (R17). -/
  status : Status
  /-- `PHASE` (R18). -/
  phase : Phase
  /-- `RESULT` (R19). -/
  result : Result
  /-- `ERRKIND` (R19). -/
  errKind : ErrKind
  /-- `ERRCNT` (R20). -/
  errCnt : ErrorCount
  /-- `ERRBASE` (R20). -/
  errBase : ErrorCount
  /-- `SEL`, the level of the select line, true for 1 (R21, R168). -/
  sel : Bool
  /-- `INFLIGHT` (R22). -/
  inflight : Option Transfer
  /-- The memory of the platform (R30). -/
  mem : Memory
  /-- The Transfer Engine's job: the model's own field (R5, notes/assumptions/14.md). -/
  te : Option Job
  /-- The turns still to come: the model's own field (notes/assumptions/1.md). -/
  sched : List Turn
  /-- What has been observed, newest first: the model's own field (notes/assumptions/19.md). -/
  trace : List Output
deriving DecidableEq, Repr

/-- Faults: there are none. The machine has no trap and no bus error (R39, R179), and each of its error kinds ends the
program in a next state (R175, R176), so nobody raises a fault, which hides no behaviour (notes/assumptions/25.md). -/
inductive Fault where
deriving DecidableEq, Repr

/-- Refusals. -/
inductive Refusal where
  /-- Raised by an arm of `exec` for an instruction without a meaning (safe: nothing can be proved of it). No arm raises
  it now. -/
  | notModelled (mnemonic : String)
deriving DecidableEq, Repr

/-- The machine right after reset (R25, R200): every field of the block at the value R25 states. Memory is not reset by
the block; nothing is listed (notes/assumptions/3.md). The Transfer Engine has no job, the schedule and the trace are
empty (DESIGN CHOICE, notes/assumptions/1.md, 14.md, 19.md). -/
def State.reset : State where
  x0 := 0#32
  x1 := 0#32
  pos := Config.null
  rem := 0#16
  rsValid := false
  rsRem := 0#16
  rsPos := 0
  status := .idle
  phase := .idle
  result := .none
  errKind := .none
  errCnt := 0
  errBase := 0
  sel := Config.selectAtReset
  inflight := none
  mem := []
  te := none
  sched := []
  trace := []

end Sys2Proof.Machine
end

