-- ==== Sys2Proof/Machine/Memory.lean ====
section
/-! DEFINITION. Memory: one flat space of bytes (2^32 of them, little-endian, by Config), with no alignment and no faults
(20_memory.md R30, R33, R34, R39), as a list of cells in one canonical form. -/

namespace Sys2Proof.Machine

/-- What an address reads as when no cell lists it. The spec gives no contents: DESIGN CHOICE 0x00, unsafe
(notes/assumptions/3.md). -/
def unlistedByte : Byte := 0x00#8

/-- The canonical form from address `lo` on: addresses strictly rising, inside the address space, and no cell that holds
what an unlisted address reads as. -/
def Memory.wfFrom (lo : Nat) : Memory → Bool
  | [] => true
  | (k, b) :: m => decide (lo ≤ k) && decide (k < 2 ^ Config.addressWidth) && b != unlistedByte && Memory.wfFrom (k + 1) m

/-- The canonical form of a memory. -/
def Memory.wf (m : Memory) : Bool := Memory.wfFrom 0 m

/-- The byte listed at key `a`, or what an unlisted address reads as. -/
def Memory.lookup : Memory → Nat → Byte
  | [], _ => unlistedByte
  | (k, b) :: m, a => if a = k then b else Memory.lookup m a

/-- The memory with byte `b` at key `a`, in canonical form when the old one was. -/
def Memory.insert : Memory → Nat → Byte → Memory
  | [], a, b => if b = unlistedByte then [] else [(a, b)]
  | (k, c) :: m, a, b =>
    if a < k then (if b = unlistedByte then (k, c) :: m else (a, b) :: (k, c) :: m)
    else if a = k then (if b = unlistedByte then m else (a, b) :: m)
    else (k, c) :: Memory.insert m a b

/-- The byte at an address (R30); every address can be read (R39). -/
def Memory.read (m : Memory) (a : Address) : Byte := m.lookup a.toNat

/-- A one-byte write; every address can be written (R39). -/
def Memory.write (m : Memory) (a : Address) (b : Byte) : Memory := m.insert a.toNat b

/-- `MemRead(a, 2)` (R33). -/
def Memory.read16 (m : Memory) (a : Address) : Half := halfOfBytes (m.read a) (m.read (a + 1))

/-- `MemRead(a, 4)` (R33). -/
def Memory.read32 (m : Memory) (a : Address) : Word :=
  wordOfBytes (m.read a) (m.read (a + 1)) (m.read (a + 2)) (m.read (a + 3))

/-- Bytes written at rising addresses, modulo 2^32 (R38). -/
def Memory.writeBytes (m : Memory) (a : Address) : List Byte → Memory
  | [] => m
  | b :: bs => Memory.writeBytes (m.write a b) (a + 1) bs

/-- `MemWrite(a, 2, v)` (R33). -/
def Memory.write16 (m : Memory) (a : Address) (v : Half) : Memory := m.writeBytes a (bytesOfHalf v)

/-- `MemWrite(a, 4, v)` (R33). -/
def Memory.write32 (m : Memory) (a : Address) (v : Word) : Memory := m.writeBytes a (bytesOfWord v)

/-- `Fetch(a)`: the record at an address, its three words read from memory as it is now (R42, R52). -/
def Memory.fetch (m : Memory) (a : Address) : Record :=
  .ofWords (m.read32 a) (m.read32 (a + 4)) (m.read32 (a + 8))

end Sys2Proof.Machine
end

