-- ==== Sys2Proof/Machine/Ops.lean ====
section
/-! DEFINITION. The named operations every instruction is written over: the Register File, the ends of a handler, the
start of a transfer, taking an error (termination), the return from a called array, and taken branches and jumps. -/

namespace Sys2Proof.Machine

/-- `x[i]` (R7, R11). -/
def State.slot (s : State) : Slot → Word
  | .r0 => s.x0
  | .r1 => s.x1

/-- `x[i] <- v` (R7, R11). -/
def State.setSlot (s : State) (i : Slot) (v : Word) : State :=
  match i with
  | .r0 => { s with x0 := v }
  | .r1 => { s with x1 := v }

/-- `rd(id)`: a slot's value, or 0 for an identifier that names no slot (R13). -/
def rd (s : State) : RegId → Word
  | .slot i => s.slot i
  | .none => 0#32
  | .unassigned _ => 0#32

/-- `wr(id, v)`: a slot is written; with an identifier that names no slot nothing happens (R13). -/
def wr (reg : RegId) (v : Word) (s : State) : State :=
  match reg with
  | .slot i => s.setSlot i v
  | .none => s
  | .unassigned _ => s

/-- `Continue`, the end of a synchronous handler: `POS <- P + 12`, where `POS` still holds `P` (R76). -/
def advance (s : State) : State := { s with pos := s.pos + Config.instrBytes }

/-- `Pending`, the end of an asynchronous handler (R77). -/
def pending (s : State) : State := { s with pos := s.pos + Config.instrBytes, phase := .wait }

/-- `TE_Start(src, dst, n)` (R160): `INFLIGHT` takes the triple, and the Transfer Engine begins a job in which no byte
has moved; a job it still had is gone (R166, notes/assumptions/14.md). -/
def startTransfer (src dst : Endpoint) (n : Half) (s : State) : State :=
  { s with
    inflight := some ⟨src, dst, n⟩
    te := some ⟨⟨src, dst, n⟩, [], 0, [], [], false⟩ }

/-- `Terminate(outcome, kind)`: the program ends and the terminal event is raised (R155, R176). -/
def terminate (outcome : Result) (kind : ErrKind) (s : State) : State :=
  { s with
    status := .idle
    phase := .idle
    result := outcome
    errKind := kind
    trace := .terminal outcome kind :: s.trace }

/-- `raise Error(kind)`, the machine's one way of taking an exception: it ends the program (R175, R176, R179). -/
def raiseError (kind : ErrKind) (s : State) : State := terminate .error kind s

/-- `Return`, the machine's one return: from a called array to the record after the branch (R74). -/
def returnToCaller (s : State) : State :=
  { s with rem := s.rsRem, pos := s.rsPos + Config.instrBytes, rsValid := false }

/-- `TakeBranch`: the return point is saved, over whatever the slot held, and the target array entered (R134, R141). -/
def takeBranch (count : Half) (target : Address) (s : State) : State :=
  { s with rsRem := s.rem, rsPos := s.pos, rsValid := true, pos := target, rem := count }

/-- `TakeJump`: a sentinel distance ends the program, any other moves the position by whole records (R138, R139). -/
def takeJump (dist : Half) (s : State) : State :=
  if dist = Config.exitOk then terminate .finished .none s
  else if dist = Config.exitFail then raiseError .explicitFailureExit s
  else { s with
    pos := s.pos + Config.instrBytes * dist.signExtend Config.addressWidth
    rem := s.rem - (dist - 1#16) }

end Sys2Proof.Machine
end

