-- ==== Sys2Proof/Machine/Operands.lean ====
section
/-! DEFINITION. The operand forms: references and their presence, the register offset of transfers, masks, the endpoints
of the peripheral forms, the shift amount and the source identifier of load-word-from-register. -/

namespace Sys2Proof.Machine

/-- `present(r)`: the field is not NULL (R7, R31). -/
def present (ref : Address) : Bool := ref != Config.null

/-- A transfer buffer: presence is tested on the field, then the offset is added modulo 2^32 (R91). -/
def bufferAt (ref : Address) (off : Word) : Endpoint := if present ref then .mem (ref + addressOfWord off) else .absent

/-- The 32-bit mask a reference gives, all ones when it is absent (R116, R140). -/
def maskOperand (s : State) (ref : Address) : Word := if present ref then s.mem.read32 ref else Config.defaultMask

/-- The receive endpoint of a peripheral-form load: the slot if `reg` names one, else `dst` if present, else none
(R100, R104). -/
def loadEndpoint (reg : RegId) (dst : Address) : Endpoint :=
  match reg with
  | .slot i => .reg i
  | .none => bufferAt dst 0#32
  | .unassigned _ => bufferAt dst 0#32

/-- The transmit endpoint of a peripheral-form store: the slot if `reg` names one, else none (R105, R106). -/
def storeEndpoint : RegId → Endpoint
  | .slot i => .reg i
  | .none => .absent
  | .unassigned _ => .absent

/-- The slot a source identifier names: 0 and 1 are valid, every other value is out of range (R103). -/
def sourceSlot (sourceId : Half) : Option Slot :=
  if sourceId = 0#16 then some .r0 else if sourceId = 1#16 then some .r1 else none

/-- The delta of `add`, sign-extended (R54, R115). -/
def addDelta (delta : Half) : Word := delta.signExtend 32

/-- Logical right shift; an amount of 32 or more, read unsigned, gives 0 (R117, R119). -/
def shiftRight (v : Word) (amount : Half) : Word := if 32 ≤ amount.toNat then 0#32 else v >>> amount.toNat

/-- Logical left shift; an amount of 32 or more, read unsigned, gives 0 (R118, R119). -/
def shiftLeft (v : Word) (amount : Half) : Word := if 32 ≤ amount.toNat then 0#32 else v <<< amount.toNat

/-- The unlock transform: low byte plus one, modulo 256, over the second byte (R121). -/
def unlock (v : Word) : Word := ((v + 1#32).extractLsb' 0 8 ++ v.extractLsb' 8 8).zeroExtend 32

end Sys2Proof.Machine
end

