-- ==== Sys2Proof/Machine/Arithmetic.lean ====
section
/-! DEFINITION. The arithmetic, logic, shift and unlock-transform instructions (43_arithmetic.md). -/

namespace Sys2Proof.Machine

/-- `ADD` (R115, R120). -/
def execAdd (reg : RegId) (delta : Half) (s : State) : Host.Outcome State Fault Refusal :=
  .next (advance (wr reg (rd s reg + addDelta delta) s))

/-- `AND` (R116). -/
def execAnd (reg : RegId) (mask : Address) (s : State) : Host.Outcome State Fault Refusal :=
  .next (advance (wr reg (rd s reg &&& maskOperand s mask) s))

/-- `SHR` (R117). -/
def execShr (reg : RegId) (amount : Half) (s : State) : Host.Outcome State Fault Refusal :=
  .next (advance (wr reg (shiftRight (rd s reg) amount) s))

/-- `SHL` (R118). -/
def execShl (reg : RegId) (amount : Half) (s : State) : Host.Outcome State Fault Refusal :=
  .next (advance (wr reg (shiftLeft (rd s reg) amount) s))

/-- `UNLK` (R121). -/
def execUnlk (reg : RegId) (s : State) : Host.Outcome State Fault Refusal :=
  .next (advance (wr reg (unlock (rd s reg)) s))

end Sys2Proof.Machine
end

