-- ==== Sys2Proof/Machine/Flags.lean ====
section
/-! DEFINITION. The block has no flags (10_state.md R24). What stands here is what other machines keep in flags: the
conditions of the conditional kinds, evaluated on a slot when the instruction executes (44_control.md R130). -/

namespace Sys2Proof.Machine

/-- The value a conditional branch tests: the whole register (R130). -/
def branchTest (s : State) (reg : RegId) : Word := rd s reg

/-- The value a conditional jump tests: the register under its mask (R130, R140). -/
def jumpTest (s : State) (reg : RegId) (mask : Address) : Word := rd s reg &&& maskOperand s mask

/-- The condition of the if-zero kinds (R130). -/
def isZero (t : Word) : Bool := t == 0#32

end Sys2Proof.Machine
end

