-- ==== Sys2Proof/Machine/Control.lean ====
section
/-! DEFINITION. The branch and jump instructions (44_control.md). -/

namespace Sys2Proof.Machine

/-- `BR` (R131). -/
def execBr (count : Half) (target : Address) (s : State) : Host.Outcome State Fault Refusal :=
  .next (takeBranch count target s)

/-- `BRZ` (R132). -/
def execBrz (reg : RegId) (count : Half) (target : Address) (s : State) : Host.Outcome State Fault Refusal :=
  if isZero (branchTest s reg) then .next (takeBranch count target s) else .next (advance s)

/-- `BRNZ` (R133). -/
def execBrnz (reg : RegId) (count : Half) (target : Address) (s : State) : Host.Outcome State Fault Refusal :=
  if isZero (branchTest s reg) then .next (advance s) else .next (takeBranch count target s)

/-- `JMP` (R135). -/
def execJmp (dist : Half) (s : State) : Host.Outcome State Fault Refusal :=
  .next (takeJump dist s)

/-- `JZ` (R136). -/
def execJz (reg : RegId) (dist : Half) (mask : Address) (s : State) : Host.Outcome State Fault Refusal :=
  if isZero (jumpTest s reg mask) then .next (takeJump dist s) else .next (advance s)

/-- `JNZ` (R137). -/
def execJnz (reg : RegId) (dist : Half) (mask : Address) (s : State) : Host.Outcome State Fault Refusal :=
  if isZero (jumpTest s reg mask) then .next (advance s) else .next (takeJump dist s)

end Sys2Proof.Machine
end

