-- ==== Sys2Proof/Machine/LoadStore.lean ====
section
/-! DEFINITION. The register load and store instructions (42_load_store.md). -/

namespace Sys2Proof.Machine

/-- `LDW` (R100, R101). -/
def execLdw (reg : RegId) (src dst : Address) (s : State) : Host.Outcome State Fault Refusal :=
  if present src then .next (advance (wr reg (s.mem.read32 src) s))
  else .next (pending (startTransfer .absent (loadEndpoint reg dst) 4#16 s))

/-- `LDWR` (R103). -/
def execLdwr (reg : RegId) (sourceId : Half) (s : State) : Host.Outcome State Fault Refusal :=
  match sourceSlot sourceId with
  | some i => .next (advance (wr reg (s.slot i) s))
  | none => .next (raiseError .invalidRegisterReference s)

/-- `LDH` (R104): the peripheral form clears the slot when it issues the start. -/
def execLdh (reg : RegId) (src dst : Address) (s : State) : Host.Outcome State Fault Refusal :=
  if present src then .next (advance (wr reg ((s.mem.read16 src).zeroExtend 32) s))
  else .next (pending (startTransfer .absent (loadEndpoint reg dst) 2#16 (wr reg 0#32 s)))

/-- `STW` (R105). -/
def execStw (reg : RegId) (src : Address) (s : State) : Host.Outcome State Fault Refusal :=
  if present src then .next (advance { s with mem := s.mem.write32 src (rd s reg) })
  else .next (pending (startTransfer (storeEndpoint reg) .absent 4#16 s))

/-- `STH` (R106). -/
def execSth (reg : RegId) (src : Address) (s : State) : Host.Outcome State Fault Refusal :=
  if present src then .next (advance { s with mem := s.mem.write16 src ((rd s reg).extractLsb' 0 16) })
  else .next (pending (startTransfer (storeEndpoint reg) .absent 2#16 s))

end Sys2Proof.Machine
end

