-- ==== Sys2Proof/Machine/Transfer.lean ====
section
/-! DEFINITION. The transfer instructions (41_transfer.md). A meaning finds `POS` at the instruction's own address `P`
and `REM` already decremented (R14, R79). -/

namespace Sys2Proof.Machine

/-- `TransferOperands`, then the start, then `Pending` (R91, R90). -/
def beginTransfer (reg : RegId) (len : Half) (src dst : Address) (s : State) : State :=
  pending (startTransfer (bufferAt src (rd s reg)) (bufferAt dst (rd s reg)) len s)

/-- The toggle of the select line (R21, R92). -/
def toggleSelect (s : State) : State := { s with sel := !s.sel }

/-- `XFER` (R90, R93). -/
def execXfer (reg : RegId) (len : Half) (src dst : Address) (s : State) : Host.Outcome State Fault Refusal :=
  .next (beginTransfer reg len src dst s)

/-- `XFERS` (R92): toggle first; a byte count of 0 then completes at once, any other starts the transfer. -/
def execXfers (reg : RegId) (len : Half) (src dst : Address) (s : State) : Host.Outcome State Fault Refusal :=
  if len = 0#16 then .next (advance (toggleSelect s))
  else .next (beginTransfer reg len src dst (toggleSelect s))

end Sys2Proof.Machine
end

