-- ==== Sys2Proof/Machine/Dispatch.lean ====
section
/-! DEFINITION. The handler of each kind (40_dispatch.md R80): one arm per constructor. -/

namespace Sys2Proof.Machine

/-- The handler's effect on a state whose `POS` is the instruction's own address and whose `REM` is already decremented
(R14, R79, R80; notes/assumptions/28.md). -/
def exec (i : Instr) (s : State) : Host.Outcome State Fault Refusal :=
  match i with
  | .xfer reg len src dst => Sys2Proof.Machine.execXfer reg len src dst s
  | .xfers reg len src dst => Sys2Proof.Machine.execXfers reg len src dst s
  | .ldw reg src dst => Sys2Proof.Machine.execLdw reg src dst s
  | .ldwr reg sourceId => Sys2Proof.Machine.execLdwr reg sourceId s
  | .ldh reg src dst => Sys2Proof.Machine.execLdh reg src dst s
  | .stw reg src => Sys2Proof.Machine.execStw reg src s
  | .sth reg src => Sys2Proof.Machine.execSth reg src s
  | .add reg delta => Sys2Proof.Machine.execAdd reg delta s
  | .and reg mask => Sys2Proof.Machine.execAnd reg mask s
  | .shr reg amount => Sys2Proof.Machine.execShr reg amount s
  | .shl reg amount => Sys2Proof.Machine.execShl reg amount s
  | .br count target => Sys2Proof.Machine.execBr count target s
  | .brz reg count target => Sys2Proof.Machine.execBrz reg count target s
  | .brnz reg count target => Sys2Proof.Machine.execBrnz reg count target s
  | .jmp dist => Sys2Proof.Machine.execJmp dist s
  | .jz reg dist mask => Sys2Proof.Machine.execJz reg dist mask s
  | .jnz reg dist mask => Sys2Proof.Machine.execJnz reg dist mask s
  | .unlk reg => Sys2Proof.Machine.execUnlk reg s

end Sys2Proof.Machine
end

