-- ==== Sys2Proof/Machine/Scheduler.lean ====
section
/-! DEFINITION. The dispatch step (40_dispatch.md R72), in the order of tests R81 fixes. -/

namespace Sys2Proof.Machine

/-- The current array is exhausted: `signed(REM) <= 0` (R15, R72). -/
def exhausted (s : State) : Bool := decide (s.rem.toInt ≤ 0)

/-- The instruction at `POS`, read from memory as it is now (R42, R52). -/
def fetched (s : State) : Except DecodeError Instr := decodeRecord (s.mem.fetch s.pos)

/-- The count falls by one at each decode, before the handler (R79). -/
def countDown (s : State) : State := { s with rem := s.rem - 1#16 }

/-- `DispatchStep` (R72): exhausted count, then return slot, then null position, then undefined kind, then the
handler. -/
def dispatchStep (s : State) : Host.Outcome State Fault Refusal :=
  if exhausted s then
    (if s.rsValid then .next (returnToCaller s) else .next (terminate .finished .none s))
  else if s.pos = Config.null then .next (raiseError .nullProgram s)
  else match fetched s with
    | .error _ => .next (raiseError .invalidInstructionKind s)
    | .ok i => exec i (countDown s)

/-- The interpreter's turn: it has a step exactly in phase RUN (R71); otherwise it passes
(notes/assumptions/20.md). -/
def interpreterTurn (s : State) : Host.Outcome State Fault Refusal :=
  match s.phase with
  | .run => dispatchStep s
  | .idle => .next s
  | .wait => .next s

end Sys2Proof.Machine
end

