-- ==== Sys2Proof/Machine/Agents.lean ====
section
/-! DEFINITION. The steps of the host and of the Transfer Engine (00_scope.md R5), and the two events the block takes
(50_interfaces.md, 60_exceptions.md R180 to R183). -/

namespace Sys2Proof.Machine

/-- Something leaves the block or the Transfer Engine. -/
def emit (o : Output) (s : State) : State := { s with trace := o :: s.trace }

/-- The writes of an accepted `SUBMIT` (R151). -/
def acceptSubmit (program : Address) (count : Half) (s : State) : State :=
  { s with
    status := .busy
    phase := .run
    pos := program
    rem := count
    rsValid := false
    errBase := s.errCnt
    result := .none
    errKind := .none }

/-- `SUBMIT(program, count)`: accepted when idle, rejected without a state change when busy (R151, R152). -/
def submit (program : Address) (count : Half) (s : State) : State :=
  match s.status with
  | .idle => emit .submitOk (acceptSubmit program count s)
  | .busy => emit .submitBusy s

/-- The host reads its three fields (R28, R154). -/
def poll (s : State) : State := emit (.polled s.status s.result s.errKind) s

/-- The host writes a byte of the memory it owns (R44). -/
def hostWrite (a : Address) (b : Byte) (s : State) : State := { s with mem := s.mem.write a b }

/-- `TE_ERR` taken by the block (R180). -/
def takeErr (s : State) : State := { s with errCnt := s.errCnt + 1 }

/-- `TE_DONE` taken by the block, the completion gate (R181). -/
def takeDone (s : State) : State :=
  match s.phase with
  | .wait =>
    if s.errCnt = s.errBase then { s with inflight := none, phase := .run }
    else raiseError .transferHardwareError { s with inflight := none }
  | .run => s
  | .idle => s

/-- The byte a transmit endpoint gives for index `k` (R161): memory at `a + k`, bits `8k+7:8k` of a slot, or 0x00. -/
def endpointByte (s : State) (e : Endpoint) (k : Nat) : Byte :=
  match e with
  | .absent => 0x00#8
  | .mem a => s.mem.read (a + BitVec.ofNat _ k)
  | .reg i => byteOfWord (s.slot i) k

/-- A word with the byte at byte offset `k` replaced (R102). -/
def setByteOfWord (w : Word) (k : Nat) (b : Byte) : Word :=
  (w &&& ~~~(0xFF#32 <<< (8 * k))) ||| (b.zeroExtend 32 <<< (8 * k))

/-- The received byte of index `k` lands at its endpoint, the other bits of a slot unchanged (R161). -/
def putEndpointByte (e : Endpoint) (k : Nat) (b : Byte) (s : State) : State :=
  match e with
  | .absent => s
  | .mem a => { s with mem := s.mem.write (a + BitVec.ofNat _ k) b }
  | .reg i => s.setSlot i (setByteOfWord (s.slot i) k b)

/-- The Transfer Engine reads byte `k` of its job's transmit endpoint, once, in any order (R40, R161). -/
def teTake (k : Nat) (s : State) : State :=
  match s.te with
  | none => s
  | some j =>
    if k < j.req.n.toNat ∧ k ∉ j.taken.map Prod.fst then
      { s with te := some { j with taken := (k, endpointByte s j.req.src k) :: j.taken } }
    else s

/-- The byte a job can put on the link next: the one taken from the endpoint at the index that is next in increasing
order (R161); after a `TE_ERR` what it sends is unspecified and `alt` stands for it (U9, notes/assumptions/17.md). -/
def Job.nextByte (j : Job) (alt : Byte) : Option Byte := if j.erred then some alt else j.taken.lookup j.sent

/-- The Transfer Engine puts the next byte of its job on the link: bytes go in increasing order (R161). -/
def teSend (alt : Byte) (s : State) : State :=
  match s.te with
  | none => s
  | some j =>
    if j.sent < j.req.n.toNat then
      match j.nextByte alt with
      | none => s
      | some b => emit (.tx j.sent b) { s with te := some { j with sent := j.sent + 1 } }
    else s

/-- The Transfer Engine receives the next byte of its job from the link (R161); `rx` is a free input (R163). -/
def teReceive (rx : Byte) (s : State) : State :=
  match s.te with
  | none => s
  | some j =>
    if j.arrived.length < j.req.n.toNat then { s with te := some { j with arrived := j.arrived ++ [rx] } } else s

/-- The Transfer Engine writes the received byte `k` of its job to the receive endpoint, once, in any order; with no
endpoint the byte is dropped (R40, R161). -/
def teStore (k : Nat) (s : State) : State :=
  match s.te with
  | none => s
  | some j =>
    match j.arrived[k]? with
    | none => s
    | some b =>
      if k ∈ j.stored then s
      else putEndpointByte j.req.dst k b { s with te := some { j with stored := k :: j.stored } }

/-- The last byte of the job has moved: all `n` are sent, received and stored, and there is one (R164, R167). -/
def Job.finished (j : Job) : Bool :=
  j.req.n != 0#16 && j.sent == j.req.n.toNat && j.arrived.length == j.req.n.toNat &&
    (List.range j.req.n.toNat).all fun k => j.stored.contains k

/-- The Transfer Engine raises `TE_DONE` once, after the last byte, and its job is over (R164); it passes before. -/
def teDone (s : State) : State :=
  match s.te with
  | none => s
  | some j => if j.finished then takeDone { s with te := none } else s

/-- The Transfer Engine raises `TE_ERR`, at any time (R165); its job, if it has one, is marked (U9). -/
def teErr (s : State) : State :=
  takeErr { s with te := s.te.map fun j => { j with erred := true } }

/-- Reset of the block: every field of R10 takes the value of R25. Memory, the Transfer Engine, the schedule and what has
been observed are outside the block (R200). -/
def blockReset (s : State) : State :=
  { State.reset with mem := s.mem, te := s.te, sched := s.sched, trace := s.trace }

/-- One turn of the schedule. -/
def takeTurn (t : Turn) (s : State) : Host.Outcome State Fault Refusal :=
  match t with
  | .dispatch => interpreterTurn s
  | .submit program count => .next (submit program count s)
  | .poll => .next (poll s)
  | .hostWrite a b => .next (hostWrite a b s)
  | .teTake k => .next (teTake k s)
  | .teSend alt => .next (teSend alt s)
  | .teReceive rx => .next (teReceive rx s)
  | .teStore k => .next (teStore k s)
  | .teDone => .next (teDone s)
  | .teErr => .next (teErr s)
  | .teErrDone => .next (teDone (teErr s))
  | .strayDone => .next (takeDone s)
  | .reset => .next (blockReset s)
  | .teReset => .next { s with te := none }

/-- The next turn: the head of the schedule, which is used up; with none, the interpreter moves
(notes/assumptions/1.md). -/
def nextTurn (s : State) : Host.Outcome State Fault Refusal :=
  match s.sched with
  | [] => interpreterTurn s
  | t :: rest => takeTurn t { s with sched := rest }

/-- A record placed where the next step fetches (notes/assumptions/2.md): its bytes stand at `POS` (at 0x1000 when `POS`
is NULL), a program is running with a count remaining, and the interpreter moves next. -/
def placeRecord (bytes : List Byte) (s : State) : State :=
  let p := if s.pos = Config.null then 0x1000 else s.pos
  { s with
    pos := p
    mem := s.mem.writeBytes p bytes
    rem := if exhausted s then 1#16 else s.rem
    status := .busy
    phase := .run
    result := .none
    errKind := .none
    inflight := none
    sched := match s.sched with
      | [] => []
      | t :: rest => .dispatch :: t :: rest }

end Sys2Proof.Machine
end

