-- ==== Sys2Proof/Machine/Step.lean ====
section
/-! DEFINITION. One step of the machine, and where a fetched instruction is placed for it. -/

namespace Sys2Proof.Machine

/-- One atomic step of one agent (R5, R9). -/
def step (s : State) : Host.Outcome State Fault Refusal := nextTurn s

/-- The state whose next step fetches the instruction of these bits, numbered as spec/opcode_table.json numbers them
(notes/assumptions/2.md). -/
def State.withFetchWord (s : State) (nbits w : Nat) : State := placeRecord (tableBytes nbits w) s

end Sys2Proof.Machine
end

