-- ==== Sys2Proof/Safety.lean ====
section
/-! DEFINITION. What counts as a safe run, and the terms the statements about the machine are made of. A run is safe when
every state of it meets `Inv`; no step faults (the machine has no faults) and none is refused. -/

namespace Sys2Proof.Machine

/-- A transfer whose register endpoints are those of R162: the other endpoint absent, two or four bytes. -/
def Transfer.legal (t : Transfer) : Bool :=
  match t.src, t.dst with
  | .reg _, .absent => t.n == 2#16 || t.n == 4#16
  | .absent, .reg _ => t.n == 2#16 || t.n == 4#16
  | .reg _, _ => false
  | _, .reg _ => false
  | _, _ => true

/-- The byte indices of a list are below a count and each stands once (R161). -/
def indicesBelow (n : Nat) (l : List Nat) : Bool := decide l.Nodup && l.all fun k => decide (k < n)

/-- A job whose transfer is legal, whose bytes were each taken and stored at most once, no byte stored before it arrived,
no more than `n` on the link in either direction, and, but for an error, none sent before it was taken (R161, R162). -/
def Job.legal (j : Job) : Bool :=
  j.req.legal && indicesBelow j.req.n.toNat (j.taken.map Prod.fst) && indicesBelow j.arrived.length j.stored &&
    decide (j.sent ≤ j.req.n.toNat) && decide (j.arrived.length ≤ j.req.n.toNat) &&
    (j.erred || (List.range j.sent).all fun k => (j.taken.lookup k).isSome)

/-- The invariant every step keeps: memory in canonical form; STATUS busy exactly in RUN and WAIT (R18); a transfer in
flight exactly in WAIT (R22, R160); no outcome while a program runs and an error kind exactly with the outcome error
(R19); the transfer in flight and the Transfer Engine's job legal (R161, R162). -/
abbrev Inv (s : State) : Prop :=
  s.mem.wf = true ∧
  (s.status = .busy ↔ s.phase ≠ .idle) ∧
  (s.inflight.isSome = true ↔ s.phase = .wait) ∧
  (s.phase ≠ .idle → s.result = .none) ∧
  (s.errKind ≠ .none ↔ s.result = .error) ∧
  s.inflight.all Transfer.legal = true ∧
  s.te.all Job.legal = true

/-- The interpreter moves next from `s`, and `s0` is `s` with its turn used up. -/
def InterpreterNext (s s0 : State) : Prop :=
  (s.sched = [] ∧ s0 = s) ∨ (∃ rest, s.sched = .dispatch :: rest ∧ s0 = { s with sched := rest })

/-- Turn `t` is next from `s`, and `s0` is `s` with that turn used up. -/
def TurnNext (t : Turn) (s s0 : State) : Prop :=
  ∃ rest, s.sched = t :: rest ∧ s0 = { s with sched := rest }

/-- The interpreter is about to decode: it moves next, in phase RUN, with a count remaining and a position (R72). -/
def Decoding (s s0 : State) : Prop :=
  InterpreterNext s s0 ∧ s.phase = .run ∧ 0 < s.rem.toInt ∧ s.pos ≠ 0#32

/-- The twelve bytes from an address on, each through the one-byte read (R50). -/
def bytesAt (m : Memory) (a : Word) : List Byte := (List.range 12).map fun k => m.read (a + BitVec.ofNat 32 k)

/-- `s` after a synchronous handler that changes nothing: the position moves to the next record (R76). -/
def continued (s : State) : State := { s with pos := s.pos + 12#32 }

/-- `s` with one slot holding `v`; an identifier that names no slot leaves every slot as it is (R13). -/
def withReg (s : State) (reg : RegId) (v : Word) : State :=
  { s with
    x0 := if reg = .slot .r0 then v else s.x0
    x1 := if reg = .slot .r1 then v else s.x1 }

/-- The value of an identifier: a slot's value, or 0 (R13). -/
def regValue (s : State) (reg : RegId) : Word :=
  if reg = .slot .r0 then s.x0 else if reg = .slot .r1 then s.x1 else 0#32

/-- `s` after an asynchronous handler: the transfer is in flight, the Transfer Engine has its job with no byte moved,
the position is the next record, the phase WAIT (R77, R160). -/
def started (s : State) (src dst : Endpoint) (n : Half) : State :=
  { s with
    pos := s.pos + 12#32
    phase := .wait
    inflight := some ⟨src, dst, n⟩
    te := some ⟨⟨src, dst, n⟩, [], 0, [], [], false⟩ }

/-- `s` after the end of a program, with the terminal event raised (R155, R176). -/
def ended (s : State) (outcome : Result) (kind : ErrKind) : State :=
  { s with
    status := .idle
    phase := .idle
    result := outcome
    errKind := kind
    trace := .terminal outcome kind :: s.trace }

/-- `s` inside the target array of a taken branch (R134). -/
def branched (s : State) (count : Half) (target : Word) : State :=
  { s with pos := target, rem := count, rsValid := true, rsRem := s.rem, rsPos := s.pos }

/-- The word at an address, as a number, is its four bytes through the one-byte read, least significant first (R33). -/
def WordAt (m : Memory) (a v : Word) : Prop :=
  v.toNat = (m.read a).toNat + 256 * (m.read (a + 1#32)).toNat + 65536 * (m.read (a + 2#32)).toNat +
    16777216 * (m.read (a + 3#32)).toNat

/-- The half-word at an address, as a number (R33). -/
def HalfAt (m : Memory) (a : Word) (v : Nat) : Prop :=
  v = (m.read a).toNat + 256 * (m.read (a + 1#32)).toNat

/-- The mask a reference gives: the word there, all ones when the reference is absent (R116, R140). -/
def MaskAt (m : Memory) (ref v : Word) : Prop :=
  (ref = 0#32 → v = 0xFFFFFFFF#32) ∧ (ref ≠ 0#32 → WordAt m ref v)

/-- The buffer a transfer reference gives under an offset: absent exactly when the field is 0 (R91). -/
def bufferOf (ref off : Word) : Endpoint := if ref = 0#32 then .absent else .mem (ref + off)

/-- `t` is where a taken jump of distance `dist` leads from `s`, in exact integer arithmetic: the end of the program for
the two sentinels, else the position moved by whole records modulo 2^32 and the count corrected modulo 2^16, read as
signed, and nothing else changed (R138, R139). -/
def JumpTaken (dist : Half) (s t : State) : Prop :=
  (dist.toInt = 32767 → t = ended s .finished .none) ∧
  (dist.toInt = -32768 → t = ended s .error .explicitFailureExit) ∧
  (dist.toInt ≠ 32767 → dist.toInt ≠ -32768 →
    t = { s with pos := t.pos, rem := t.rem } ∧
    (t.pos.toNat : Int) = ((s.pos.toNat : Int) + 12 * dist.toInt) % 4294967296 ∧
    t.rem.toInt = (s.rem.toInt - (dist.toInt - 1)).bmod 65536)

/-- A record with this kind code is this instruction, whatever its other fields hold (R51, R55). -/
def HasEncoding (code : Nat) (mk : Record → Instr) : Prop :=
  ∀ r : Record, r.kind.toNat = code → decodeRecord r = .ok (mk r)

/-- Every byte of a job has been sent, received and stored, and there is one (R164, R167). -/
def AllMoved (j : Job) : Prop :=
  j.req.n ≠ 0#16 ∧ j.sent = j.req.n.toNat ∧ j.arrived.length = j.req.n.toNat ∧ ∀ k, k < j.req.n.toNat → k ∈ j.stored

/-- The branch kinds, which leave the current array (R134). -/
def isBranch : Instr → Bool
  | .br _ _ => true
  | .brz _ _ _ => true
  | .brnz _ _ _ => true
  | .xfer _ _ _ _ => false
  | .xfers _ _ _ _ => false
  | .ldw _ _ _ => false
  | .ldwr _ _ => false
  | .ldh _ _ _ => false
  | .stw _ _ => false
  | .sth _ _ => false
  | .add _ _ => false
  | .and _ _ => false
  | .shr _ _ => false
  | .shl _ _ => false
  | .jmp _ => false
  | .jz _ _ _ => false
  | .jnz _ _ _ => false
  | .unlk _ => false

/-- The distance of a jump kind, 1 for every other kind (R138). -/
def distance : Instr → Half
  | .jmp dist => dist
  | .jz _ dist _ => dist
  | .jnz _ dist _ => dist
  | .br _ _ => 1#16
  | .brz _ _ _ => 1#16
  | .brnz _ _ _ => 1#16
  | .xfer _ _ _ _ => 1#16
  | .xfers _ _ _ _ => 1#16
  | .ldw _ _ _ => 1#16
  | .ldwr _ _ => 1#16
  | .ldh _ _ _ => 1#16
  | .stw _ _ => 1#16
  | .sth _ _ => 1#16
  | .add _ _ => 1#16
  | .and _ _ => 1#16
  | .shr _ _ => 1#16
  | .shl _ _ => 1#16
  | .unlk _ => 1#16

/-- The synchronous instructions without branch, jump or error, of which R85 states the count property. -/
def straightLine : Instr → Bool
  | .xfer _ _ _ _ => false
  | .xfers _ len _ _ => len == 0#16
  | .ldw _ src _ => src != 0#32
  | .ldwr _ sourceId => sourceId == 0#16 || sourceId == 1#16
  | .ldh _ src _ => src != 0#32
  | .stw _ src => src != 0#32
  | .sth _ src => src != 0#32
  | .add _ _ => true
  | .and _ _ => true
  | .shr _ _ => true
  | .shl _ _ => true
  | .br _ _ => false
  | .brz _ _ _ => false
  | .brnz _ _ _ => false
  | .jmp _ => false
  | .jz _ _ _ => false
  | .jnz _ _ _ => false
  | .unlk _ => true

end Sys2Proof.Machine
end

