-- ==== Sys2Proof/Certificates/Slice0/Obligations.lean ====
section
/-! DEFINITION. The statements for the provers. Each speaks through the one-byte read of memory and the vocabulary of
Sys2Proof/Safety.lean, which is written from the rules and not from the operations the machine runs. -/

open Sys2Proof Sys2Proof.Machine

/-! ### Encoding -/

/-- R50 to R57: decoding the bytes of a well-formed instruction, whatever bytes follow, gives it and the rest. -/
def Obligations.DecodeOfEncodeIsTheInstruction : Prop :=
  ∀ (i : Instr) (rest : List Byte), i.wellFormed = true → decode (encode i ++ rest) = .ok (i, rest)

/-- R51, R55, R65: records written out byte by byte decode to the instructions they stand for. -/
def Obligations.WrittenRecordsDecodeAsTheSpecSays : Prop :=
  decode [0x07, 0x00, 0xFF, 0xFF, 0, 0, 0, 0, 0, 0, 0, 0] = .ok (.add (.slot .r0) (-1), []) ∧
  decode [0x00, 0x00, 0x08, 0x00, 0x00, 0x20, 0, 0, 0x00, 0x30, 0, 0] = .ok (.xfer (.slot .r0) 8 0x2000 0x3000, []) ∧
  decode [0x03, 0x00, 0x01, 0x00, 0, 0, 0, 0, 0, 0, 0, 0] = .ok (.ldwr (.slot .r0) 1, []) ∧
  decode [0x0F, 0x00, 0x02, 0x00, 0x00, 0x40, 0, 0, 0, 0, 0, 0] = .ok (.jz (.slot .r0) 2 0x4000, []) ∧
  decode [0x12, 0, 0, 0, 0, 0, 0, 0, 0, 0, 0, 0] = .error (.invalidKind 0x12)

/-- R60, R61: a record is refused exactly when its kind is above 17, and every other record is a well-formed
instruction of that kind. -/
def Obligations.OnlyUndefinedKindsAreRefused : Prop :=
  ∀ r : Record,
    (17 < r.kind.toNat → decodeRecord r = .error (.invalidKind r.kind)) ∧
    (r.kind.toNat ≤ 17 → ∃ i, decodeRecord r = .ok i ∧ i.wellFormed = true ∧ (encodeRecord i).kind = r.kind)

/-- R57: two records of one kind that agree on the fields the kind uses are the same instruction. -/
def Obligations.FieldsAKindDoesNotUseAreIgnored : Prop :=
  ∀ r r' : Record, r.kind = r'.kind →
    (r.kind.toNat ∉ [11, 14] → r.reg = r'.reg) →
    (r.kind.toNat ∉ [2, 4, 5, 6, 8, 17] → r.len = r'.len) →
    (r.kind.toNat ∉ [3, 7, 9, 10, 14, 17] → r.src = r'.src) →
    (r.kind.toNat ∈ [0, 1, 2, 4] → r.dst = r'.dst) →
    decodeRecord r = decodeRecord r'

/-- R51, R64: bits numbered as the opcode table numbers them reach the fields of the record layout. -/
def Obligations.TableBitsReachTheFields : Prop :=
  ∀ w : Nat,
    decodeTableWord 96 w =
      (decodeRecord ⟨.ofNat 8 w, .ofNat 8 (w / 2 ^ 8), .ofNat 16 (w / 2 ^ 16), .ofNat 32 (w / 2 ^ 32),
        .ofNat 32 (w / 2 ^ 64)⟩).toOption

/-! ### The dispatcher -/

/-- R52, R72, R79: when the twelve bytes at the position decode to `i`, a step is `exec i` on the state whose count is
one less. That `exec` is the handler alone is the model's choice (notes/assumptions/28.md). -/
def Obligations.StepRunsTheDecodedInstruction : Prop :=
  ∀ (s s0 : State) (i : Instr), Decoding s s0 → decode (bytesAt s.mem s.pos) = .ok (i, []) →
    step s = exec i { s0 with rem := s0.rem - 1#16 }

/-- R75: an exhausted count, zero or negative, with an empty return slot ends the program `finished`. -/
def Obligations.ExhaustedArrayWithEmptySlotFinishes : Prop :=
  ∀ s s0 : State, InterpreterNext s s0 → s.phase = .run → s.rem.toInt ≤ 0 → s.rsValid = false →
    step s = .next (ended s0 .finished .none)

/-- R74: an exhausted count with a return pending resumes at the record after the branch with the saved count, and
empties the slot. -/
def Obligations.ExhaustedArrayReturnsToTheCaller : Prop :=
  ∀ s s0 : State, InterpreterNext s s0 → s.phase = .run → s.rem.toInt ≤ 0 → s.rsValid = true →
    step s = .next { s0 with rem := s.rsRem, pos := s.rsPos + 12#32, rsValid := false }

/-- R73: a null position with a count remaining ends the program with null-program; nothing else changes. -/
def Obligations.NullPositionEndsWithNullProgram : Prop :=
  ∀ s s0 : State, InterpreterNext s s0 → s.phase = .run → 0 < s.rem.toInt → s.pos = 0#32 →
    step s = .next (ended s0 .error .nullProgram) ∧ ErrKind.nullProgram.code = 2#3

/-- R78: a fetched kind above 17 ends the program with invalid-instruction-kind before any side effect. -/
def Obligations.UndefinedKindEndsWithInvalidKind : Prop :=
  ∀ s s0 : State, Decoding s s0 → 17 < (s.mem.read s.pos).toNat →
    step s = .next (ended s0 .error .invalidInstructionKind) ∧ ErrKind.invalidInstructionKind.code = 1#3

/-- R71: outside RUN the interpreter has no step: with nothing else scheduled the state stays. That the model's step
then answers the same state is the model's choice (notes/assumptions/20.md). -/
def Obligations.InterpreterHasNoStepOutsideRun : Prop :=
  ∀ s s0 : State, InterpreterNext s s0 → s.phase ≠ .run → step s = .next s0

/-! ### Transfers -/

/-- R90, R91, R93: `XFER` starts the transfer of its operands, the register offset added to each present reference
modulo 2^32, the count read unsigned, and waits; nothing else changes. The job in `te` is the model's own view of the
Transfer Engine (notes/assumptions/14.md). -/
def Obligations.TransferStartsWithItsOffsetOperands : Prop :=
  HasEncoding 0 (fun r => .xfer (.ofCode r.reg) r.len r.src r.dst) ∧
  ∀ (s : State) (reg : RegId) (len : Half) (src dst : Word),
    exec (.xfer reg len src dst) s =
      .next (started s (bufferOf src (regValue s reg)) (bufferOf dst (regValue s reg)) len)

/-- R92: `XFERS` inverts the select line first, in every case; a count of 0 then goes on at once, any other starts the
transfer. The job in `te` is the model's own view of the Transfer Engine (notes/assumptions/14.md). -/
def Obligations.SelectTogglesBeforeTheTransfer : Prop :=
  HasEncoding 1 (fun r => .xfers (.ofCode r.reg) r.len r.src r.dst) ∧
  ∀ (s : State) (reg : RegId) (len : Half) (src dst : Word),
    (len = 0#16 → exec (.xfers reg len src dst) s = .next { s with sel := !s.sel, pos := s.pos + 12#32 }) ∧
    (len ≠ 0#16 → exec (.xfers reg len src dst) s =
      .next (started { s with sel := !s.sel } (bufferOf src (regValue s reg)) (bufferOf dst (regValue s reg)) len))

/-! ### Loads and stores -/

/-- R100, R101: the memory form of `LDW` loads the little-endian word at `src`, at any alignment, and changes no other
slot, no memory and nothing else. -/
def Obligations.LoadWordReadsTheWordAtItsOperand : Prop :=
  HasEncoding 2 (fun r => .ldw (.ofCode r.reg) r.src r.dst) ∧
  ∀ (s : State) (reg : RegId) (src dst v : Word), src ≠ 0#32 → WordAt s.mem src v →
    exec (.ldw reg src dst) s = .next (continued (withReg s reg v))

/-- R104: the memory form of `LDH` loads the half-word at `src` with the upper half zero. -/
def Obligations.LoadHalfWordZeroExtends : Prop :=
  HasEncoding 4 (fun r => .ldh (.ofCode r.reg) r.src r.dst) ∧
  ∀ (s : State) (reg : RegId) (src dst v : Word), src ≠ 0#32 → HalfAt s.mem src v.toNat →
    exec (.ldh reg src dst) s = .next (continued (withReg s reg v))

/-- R100, R104: a load without `src` starts a receive of 4 or 2 bytes into the slot, else into `dst` if present, else
nowhere; `LDH` clears the slot at the start. The job in `te` is the model's own view of the Transfer Engine
(notes/assumptions/14.md). -/
def Obligations.LoadsWithoutSourceStartAReceive : Prop :=
  ∀ (s : State) (reg : RegId) (dst : Word),
    (∀ i, reg = .slot i →
      exec (.ldw reg 0#32 dst) s = .next (started s .absent (.reg i) 4#16) ∧
      exec (.ldh reg 0#32 dst) s = .next (started (withReg s reg 0#32) .absent (.reg i) 2#16)) ∧
    ((∀ i, reg ≠ .slot i) →
      exec (.ldw reg 0#32 dst) s = .next (started s .absent (bufferOf dst 0#32) 4#16) ∧
      exec (.ldh reg 0#32 dst) s = .next (started s .absent (bufferOf dst 0#32) 2#16))

/-- R103: `LDWR` copies slot 0 or 1; any other source identifier ends the program with invalid-register-reference and
writes no register, the position staying. -/
def Obligations.LoadFromRegisterValidatesItsSource : Prop :=
  HasEncoding 3 (fun r => .ldwr (.ofCode r.reg) r.len) ∧
  ErrKind.invalidRegisterReference.code = 3#3 ∧
  ∀ (s : State) (reg : RegId) (sourceId : Half),
    (sourceId.toInt = 0 → exec (.ldwr reg sourceId) s = .next (continued (withReg s reg s.x0))) ∧
    (sourceId.toInt = 1 → exec (.ldwr reg sourceId) s = .next (continued (withReg s reg s.x1))) ∧
    (sourceId.toInt < 0 ∨ 1 < sourceId.toInt →
      exec (.ldwr reg sourceId) s = .next (ended s .error .invalidRegisterReference))

/-- R105: the memory form of `STW` writes the four bytes of the register at `src` to `src + 3` modulo 2^32, least
significant first, and every other byte of memory reads as before. -/
def Obligations.StoreWordWritesFourBytes : Prop :=
  HasEncoding 5 (fun r => .stw (.ofCode r.reg) r.src) ∧
  ∀ (s : State) (reg : RegId) (src : Word), src ≠ 0#32 → s.mem.wf = true →
    ∃ t, exec (.stw reg src) s = .next t ∧ t = { continued s with mem := t.mem } ∧
      ∀ a : Word, (t.mem.read a).toNat =
        if a = src then (regValue s reg).toNat % 256
        else if a = src + 1#32 then (regValue s reg).toNat / 256 % 256
        else if a = src + 2#32 then (regValue s reg).toNat / 65536 % 256
        else if a = src + 3#32 then (regValue s reg).toNat / 16777216
        else (s.mem.read a).toNat

/-- R106: the memory form of `STH` writes the two low bytes of the register at `src` and `src + 1` modulo 2^32 and no
other byte. -/
def Obligations.StoreHalfWordWritesTwoBytes : Prop :=
  HasEncoding 6 (fun r => .sth (.ofCode r.reg) r.src) ∧
  ∀ (s : State) (reg : RegId) (src : Word), src ≠ 0#32 → s.mem.wf = true →
    ∃ t, exec (.sth reg src) s = .next t ∧ t = { continued s with mem := t.mem } ∧
      ∀ a : Word, (t.mem.read a).toNat =
        if a = src then (regValue s reg).toNat % 256
        else if a = src + 1#32 then (regValue s reg).toNat / 256 % 256
        else (s.mem.read a).toNat

/-- R105, R106: a store without `src` starts a transmit of 4 or 2 bytes from the slot, or of zero bytes when `reg` names
none; no receive is armed. The job in `te` is the model's own view of the Transfer Engine (notes/assumptions/14.md). -/
def Obligations.StoresWithoutTargetStartATransmit : Prop :=
  ∀ (s : State) (reg : RegId),
    (∀ i, reg = .slot i →
      exec (.stw reg 0#32) s = .next (started s (.reg i) .absent 4#16) ∧
      exec (.sth reg 0#32) s = .next (started s (.reg i) .absent 2#16)) ∧
    ((∀ i, reg ≠ .slot i) →
      exec (.stw reg 0#32) s = .next (started s .absent .absent 4#16) ∧
      exec (.sth reg 0#32) s = .next (started s .absent .absent 2#16))

/-- R33, R37: a word stored by `STW` is the word `LDW` then loads from the same reference, at the top of the address
space too. -/
def Obligations.LoadAfterStoreGivesTheStoredWord : Prop :=
  ∀ (s : State) (reg : RegId) (i : Slot) (a dst : Word), a ≠ 0#32 → s.mem.wf = true →
    ∃ t u, exec (.stw reg a) s = .next t ∧ exec (.ldw (.slot i) a dst) t = .next u ∧
      regValue u (.slot i) = regValue s reg

/-! ### Arithmetic -/

/-- R115: `ADD` adds the signed delta modulo 2^32 to the slot; an identifier without a slot changes no register. -/
def Obligations.AddIsSignedDeltaModulo : Prop :=
  HasEncoding 7 (fun r => .add (.ofCode r.reg) r.len) ∧
  ∀ (s : State) (reg : RegId) (delta : Half) (v : Word),
    (v.toNat : Int) = ((regValue s reg).toNat + delta.toInt) % 4294967296 →
    exec (.add reg delta) s = .next (continued (withReg s reg v))

/-- R116: `AND` masks the slot, bit by bit, with the word at `src`, or with all ones when `src` is absent. -/
def Obligations.AndMasksWithTheWordInMemory : Prop :=
  HasEncoding 8 (fun r => .and (.ofCode r.reg) r.src) ∧
  ∀ (s : State) (reg : RegId) (src m v : Word), MaskAt s.mem src m →
    (∀ k, k < 32 → v.getLsbD k = (m.getLsbD k && (regValue s reg).getLsbD k)) →
    exec (.and reg src) s = .next (continued (withReg s reg v))

/-- R117, R119: `SHR` divides by the power of two, rounding down; an amount of 32 or more, read unsigned, gives 0. -/
def Obligations.ShiftRightIsLogical : Prop :=
  HasEncoding 9 (fun r => .shr (.ofCode r.reg) r.len) ∧
  ∀ (s : State) (reg : RegId) (amount : Half) (v : Word),
    v.toNat = (if amount.toNat < 32 then (regValue s reg).toNat / 2 ^ amount.toNat else 0) →
    exec (.shr reg amount) s = .next (continued (withReg s reg v))

/-- R118, R119: `SHL` multiplies by the power of two modulo 2^32; an amount of 32 or more, read unsigned, gives 0. -/
def Obligations.ShiftLeftDropsHighBits : Prop :=
  HasEncoding 10 (fun r => .shl (.ofCode r.reg) r.len) ∧
  ∀ (s : State) (reg : RegId) (amount : Half) (v : Word),
    v.toNat = (if amount.toNat < 32 then (regValue s reg).toNat * 2 ^ amount.toNat % 4294967296 else 0) →
    exec (.shl reg amount) s = .next (continued (withReg s reg v))

/-- R121: `UNLK` gives ((v + 1) mod 256) * 256 + (v / 256) mod 256. -/
def Obligations.UnlockTransformFormula : Prop :=
  HasEncoding 17 (fun r => .unlk (.ofCode r.reg)) ∧
  ∀ (s : State) (reg : RegId) (v : Word),
    v.toNat = ((regValue s reg).toNat + 1) % 256 * 256 + (regValue s reg).toNat / 256 % 256 →
    exec (.unlk reg) s = .next (continued (withReg s reg v))

/-! ### Control -/

/-- R131, R134, R141: `BR` saves the count and its own position, over whatever the slot held, and enters the target
array; no bound is checked. -/
def Obligations.BranchSavesTheReturnPoint : Prop :=
  HasEncoding 11 (fun r => .br r.len r.src) ∧
  ∀ (s : State) (count : Half) (target : Word),
    exec (.br count target) s = .next (branched s count target)

/-- R132, R130: `BRZ` branches exactly when the whole register is 0 (an identifier without a slot tests as 0); otherwise
it saves nothing and goes on. -/
def Obligations.BranchIfZeroTestsTheWholeRegister : Prop :=
  HasEncoding 12 (fun r => .brz (.ofCode r.reg) r.len r.src) ∧
  ∀ (s : State) (reg : RegId) (count : Half) (target : Word),
    ((regValue s reg).toNat = 0 → exec (.brz reg count target) s = .next (branched s count target)) ∧
    ((regValue s reg).toNat ≠ 0 → exec (.brz reg count target) s = .next (continued s))

/-- R133, R130: `BRNZ` branches exactly when the register is not 0. -/
def Obligations.BranchIfNonzeroTestsTheWholeRegister : Prop :=
  HasEncoding 13 (fun r => .brnz (.ofCode r.reg) r.len r.src) ∧
  ∀ (s : State) (reg : RegId) (count : Half) (target : Word),
    ((regValue s reg).toNat ≠ 0 → exec (.brnz reg count target) s = .next (branched s count target)) ∧
    ((regValue s reg).toNat = 0 → exec (.brnz reg count target) s = .next (continued s))

/-- R135, R138, R139: `JMP` always jumps. -/
def Obligations.JumpMovesByWholeRecords : Prop :=
  HasEncoding 14 (fun r => .jmp r.len) ∧
  ∀ (s : State) (dist : Half), ∃ t, exec (.jmp dist) s = .next t ∧ JumpTaken dist s t

/-- R136, R138 to R140: `JZ` jumps exactly when the masked register is 0; untaken, it goes on, whatever its distance. -/
def Obligations.JumpIfZeroTestsUnderTheMask : Prop :=
  HasEncoding 15 (fun r => .jz (.ofCode r.reg) r.len r.src) ∧
  ∀ (s : State) (reg : RegId) (dist : Half) (mask m : Word), MaskAt s.mem mask m →
    ((∀ k, k < 32 → ((regValue s reg).getLsbD k && m.getLsbD k) = false) →
      ∃ t, exec (.jz reg dist mask) s = .next t ∧ JumpTaken dist s t) ∧
    ((∃ k, k < 32 ∧ ((regValue s reg).getLsbD k && m.getLsbD k) = true) →
      exec (.jz reg dist mask) s = .next (continued s))

/-- R137, R138 to R140: `JNZ` jumps exactly when the masked register is not 0. -/
def Obligations.JumpIfNonzeroTestsUnderTheMask : Prop :=
  HasEncoding 16 (fun r => .jnz (.ofCode r.reg) r.len r.src) ∧
  ∀ (s : State) (reg : RegId) (dist : Half) (mask m : Word), MaskAt s.mem mask m →
    ((∃ k, k < 32 ∧ ((regValue s reg).getLsbD k && m.getLsbD k) = true) →
      ∃ t, exec (.jnz reg dist mask) s = .next t ∧ JumpTaken dist s t) ∧
    ((∀ k, k < 32 → ((regValue s reg).getLsbD k && m.getLsbD k) = false) →
      exec (.jnz reg dist mask) s = .next (continued s))

/-- R84, R138: `JMP 0` leads a step back to the state it started from. -/
def Obligations.JumpToItselfReturnsToTheSameState : Prop :=
  ∀ s s0 : State, Decoding s s0 → decode (bytesAt s.mem s.pos) = .ok (.jmp 0#16, []) → step s = .next s0

/-- R15, R138: every decoded instruction but a branch leaves `POS + 12 * REM`, the end of the array, where it was, while
the program goes on and the count does not wrap. -/
def Obligations.EndOfArrayStaysPut : Prop :=
  ∀ (s s0 t : State) (i : Instr), Decoding s s0 → decode (bytesAt s.mem s.pos) = .ok (i, []) → isBranch i = false →
    -32768 ≤ s.rem.toInt - (distance i).toInt → s.rem.toInt - (distance i).toInt ≤ 32767 →
    step s = .next t → t.phase ≠ .idle →
    t.pos + 12#32 * t.rem.signExtend 32 = s.pos + 12#32 * s.rem.signExtend 32

/-- R85: a run of straight-line instructions from a count of `n` takes exactly `n` decoding steps, the count falling by
one at each, and one step that ends it `finished` with the count 0. That the interpreter moves at every step while the
schedule is empty is the model's choice (notes/assumptions/1.md). -/
def Obligations.StraightLineProgramsRunTheirCount : Prop :=
  ∀ (n : Nat) (s : State), s.phase = .run → s.sched = [] → s.rsValid = false → s.rem.toInt = n →
    (∀ (k : Nat) (u : State), k < n → core.run k s = .next u →
      u.pos ≠ 0#32 ∧ ∃ i, decode (bytesAt u.mem u.pos) = .ok (i, []) ∧ straightLine i = true) →
    (∀ k, k ≤ n → ∃ u : State, core.run k s = .next u ∧ u.phase = .run ∧ u.rem.toInt = (n : Int) - k ∧
      u.pos = s.pos + 12#32 * BitVec.ofNat 32 k) ∧
    ∃ t : State, core.run (n + 1) s = .next t ∧ t.status = .idle ∧ t.phase = .idle ∧ t.result = .finished ∧
      t.errKind = .none ∧ t.rem = 0#16

/-! ### The host -/

/-- R151: an idle block accepts a program: the listed fields change, the host is told ok, and nothing else changes. -/
def Obligations.SubmitWhenIdleIsAccepted : Prop :=
  ∀ (s s0 : State) (program : Word) (count : Half), TurnNext (.submit program count) s s0 → s.status = .idle →
    ∃ t, step s = .next t ∧ t.status = .busy ∧ t.phase = .run ∧ t.pos = program ∧ t.rem = count ∧
      t.rsValid = false ∧ t.errBase = s.errCnt ∧ t.result = .none ∧ t.errKind = .none ∧
      t.trace = .submitOk :: s.trace ∧
      t = { s0 with
        status := t.status, phase := t.phase, pos := t.pos, rem := t.rem, rsValid := t.rsValid
        errBase := t.errBase, result := t.result, errKind := t.errKind, trace := t.trace }

/-- R27, R152: a busy block rejects a program and no state of the block changes, in RUN and in WAIT alike. -/
def Obligations.SubmitWhenBusyChangesNothing : Prop :=
  ∀ (s s0 : State) (program : Word) (count : Half), TurnNext (.submit program count) s s0 → s.status = .busy →
    ∃ t, step s = .next t ∧ t.trace = .submitBusy :: s.trace ∧ t = { s0 with trace := t.trace }

/-- R28, R157: what each of the host's turns leaves as it was. A poll changes nothing but the trace; a host write changes
nothing but memory, and of memory only the byte it names; a submit, accepted or rejected, keeps both registers, SEL,
ERRCNT, RS_REM, RS_POS, INFLIGHT, memory and the Transfer Engine. The turns are the model's own (notes/assumptions/1.md,
27.md). -/
def Obligations.HostTurnsChangeOnlyWhatTheyName : Prop :=
  ∀ (s s0 t : State) (turn : Turn), TurnNext turn s s0 → step s = .next t →
    (turn = .poll → t = { s0 with trace := .polled s.status s.result s.errKind :: s.trace }) ∧
    (∀ a b, turn = .hostWrite a b →
      t = { s0 with mem := t.mem } ∧
      (s.mem.wf = true → ∀ x : Word, t.mem.read x = if x = a then b else s.mem.read x)) ∧
    (∀ p c, turn = .submit p c →
      t.x0 = s.x0 ∧ t.x1 = s.x1 ∧ t.sel = s.sel ∧ t.errCnt = s.errCnt ∧ t.rsRem = s.rsRem ∧ t.rsPos = s.rsPos ∧
      t.inflight = s.inflight ∧ t.mem = s.mem ∧ t.te = s.te)

/-- R25, R200: reset puts every field of the block at its reset value, raises no event, and leaves memory and the
Transfer Engine as they are; the host's State.reset has the same values. The fields `te` and `trace` are the model's own
(notes/assumptions/14.md, 19.md). -/
def Obligations.ResetGivesTheResetValues : Prop :=
  ∀ s s0 : State, TurnNext .reset s s0 →
    ∃ t, step s = .next t ∧ t.mem = s.mem ∧ t.te = s.te ∧ t.trace = s.trace ∧
      ∀ u : State, u = t ∨ u = State.reset →
        u.x0 = 0#32 ∧ u.x1 = 0#32 ∧ u.pos = 0#32 ∧ u.rem = 0#16 ∧ u.rsValid = false ∧ u.rsRem = 0#16 ∧
        u.rsPos = 0#32 ∧ u.status = .idle ∧ u.phase = .idle ∧ u.result = .none ∧ u.errKind = .none ∧
        u.errCnt = 0#32 ∧ u.errBase = 0#32 ∧ u.sel = false ∧ u.inflight = none

/-! ### The Transfer Engine and its events -/

/-- R180: an error event adds one to the counter, modulo 2^32, in every phase, and changes nothing else of the block. -/
def Obligations.ErrorEventOnlyCounts : Prop :=
  ∀ s s0 : State, TurnNext .teErr s s0 →
    ∃ t, step s = .next t ∧ t.errCnt.toNat = (s.errCnt.toNat + 1) % 4294967296 ∧
      t = { s0 with errCnt := t.errCnt, te := t.te }

/-- R164, R181: the completion gate. When every byte of the job has moved, the Transfer Engine raises its completion
once: in WAIT the transfer leaves INFLIGHT and the program goes on, or ends with transfer-hardware-error if an error was
counted since its SUBMIT; outside WAIT the block ignores it. The job in `te` is the model's own view of the Transfer
Engine (notes/assumptions/14.md). -/
def Obligations.CompletionGatesTheScheduler : Prop :=
  ErrKind.transferHardwareError.code = 5#3 ∧
  ∀ (s s0 : State) (j : Job), TurnNext .teDone s s0 → s.te = some j → AllMoved j →
    (s.phase = .wait → s.errCnt = s.errBase →
      step s = .next { s0 with te := none, inflight := none, phase := .run }) ∧
    (s.phase = .wait → s.errCnt ≠ s.errBase →
      step s = .next (ended { s0 with te := none, inflight := none } .error .transferHardwareError)) ∧
    (s.phase ≠ .wait → step s = .next { s0 with te := none })

/-- R181, R200, U13: the block's reaction to a completion event that arrives from anywhere, guarantee or not. The turn
that carries a forbidden event is the model's own (notes/assumptions/18.md). -/
def Obligations.AnyCompletionEventIsTakenByThePhase : Prop :=
  ∀ s s0 : State, TurnNext .strayDone s s0 →
    (s.phase = .wait → s.errCnt = s.errBase → step s = .next { s0 with inflight := none, phase := .run }) ∧
    (s.phase = .wait → s.errCnt ≠ s.errBase →
      step s = .next (ended { s0 with inflight := none } .error .transferHardwareError)) ∧
    (s.phase ≠ .wait → step s = .next s0)

/-- R182: an error and the completion it comes with end the program with transfer-hardware-error, the counter
incremented first. The turn that carries both is the model's own (notes/assumptions/21.md). -/
def Obligations.ErrorWithCompletionIsCountedFirst : Prop :=
  ∀ (s s0 : State) (j : Job), TurnNext .teErrDone s s0 → s.phase = .wait → s.errCnt = s.errBase → s.te = some j →
    AllMoved j →
    step s = .next (ended { s0 with errCnt := s.errCnt + 1#32, te := none, inflight := none } .error
      .transferHardwareError)

/-- R164, R166, R182: the Transfer Engine raises no completion of its own, alone or with an error, before the last byte has
moved, and none without a job: until then its completion turn changes nothing, and the turn that carries an error with
the completion does what the error alone does. When the last byte has moved the completion ends the job. The job in `te`
is the model's own view of the Transfer Engine (notes/assumptions/14.md), and so is the turn that carries both
(notes/assumptions/21.md). -/
def Obligations.CompletionWaitsForTheLastByte : Prop :=
  ∀ (s s0 t : State) (turn : Turn), turn = .teDone ∨ turn = .teErrDone → TurnNext turn s s0 → step s = .next t →
    ((∃ j, s.te = some j ∧ AllMoved j) → t.te = none) ∧
    ((∀ j, s.te = some j → ¬AllMoved j) →
      (turn = .teDone → t = s0) ∧
      (turn = .teErrDone →
        t = { s0 with errCnt := s.errCnt + 1#32, te := t.te } ∧ (t.te.map Job.req = s.te.map Job.req) ∧
        step { s with sched := .teErr :: s0.sched } = .next t))

/-- R161, R40: the byte taken for index `k` is the memory byte at `a + k` modulo 2^32, bits `8k+7:8k` of the slot, or 0x00,
each index once and in any order; the bytes then go on the link in increasing order, the next one only when it was
taken; and no step of any agent puts another byte on the link than the next. That the byte taken is the byte sent holds
while no error was raised (U9). One byte a turn, taken and sent at turns of their own, is the model's choice
(notes/assumptions/15.md, 17.md). -/
def Obligations.TransmittedBytesComeFromTheEndpointInOrder : Prop :=
  (∀ (s s0 : State) (k : Nat) (b : Byte) (j : Job), TurnNext (.teTake k) s s0 → s.te = some j →
    k < j.req.n.toNat → k ∉ j.taken.map Prod.fst →
    (∀ a, j.req.src = .mem a → b = s.mem.read (a + BitVec.ofNat 32 k)) →
    (∀ i, j.req.src = .reg i → b.toNat = (regValue s (.slot i)).toNat / 2 ^ (8 * k) % 256) →
    (j.req.src = .absent → b = 0x00#8) →
    step s = .next { s0 with te := some { j with taken := (k, b) :: j.taken } }) ∧
  (∀ (s s0 : State) (alt : Byte) (j : Job), TurnNext (.teSend alt) s s0 → s.te = some j → j.erred = false →
    j.sent < j.req.n.toNat →
    (∀ b, j.taken.lookup j.sent = some b →
      step s = .next { s0 with te := some { j with sent := j.sent + 1 }, trace := .tx j.sent b :: s.trace }) ∧
    (j.taken.lookup j.sent = none → step s = .next s0)) ∧
  (∀ (s t : State) (k : Nat) (b : Byte), step s = .next t → t.trace = .tx k b :: s.trace →
    ∃ j, s.te = some j ∧ k = j.sent ∧ k < j.req.n.toNat ∧ t.te = some { j with sent := k + 1 })

/-- R161: the next byte received from the link takes its place after those received before; and the received byte `k`
then lands at `a + k` modulo 2^32 and nowhere else in memory, in any order. One byte a turn, its value free, is the
model's choice (notes/assumptions/15.md, 16.md). -/
def Obligations.ReceivedBytesArriveInOrderAndLandInMemory : Prop :=
  (∀ (s s0 : State) (rx : Byte) (j : Job), TurnNext (.teReceive rx) s s0 → s.te = some j →
    j.arrived.length < j.req.n.toNat →
    step s = .next { s0 with te := some { j with arrived := j.arrived ++ [rx] } }) ∧
  (∀ (s s0 : State) (k : Nat) (b : Byte) (j : Job) (a : Word), TurnNext (.teStore k) s s0 → s.te = some j →
    j.req.dst = .mem a → j.arrived[k]? = some b → k ∉ j.stored → s.mem.wf = true →
    ∃ t, step s = .next t ∧ t = { s0 with te := some { j with stored := k :: j.stored }, mem := t.mem } ∧
      ∀ x : Word, t.mem.read x = if x = a + BitVec.ofNat 32 k then b else s.mem.read x)

/-- R102, R161: the received byte `k` lands in bits `8k+7:8k` of the slot, the slot's other bits, the other slot and all
else unchanged; with no receive endpoint it is dropped. One byte a turn, its value free, is the model's choice
(notes/assumptions/15.md, 16.md). -/
def Obligations.ReceivedByteLandsInTheSlot : Prop :=
  ∀ (s s0 : State) (k : Nat) (b : Byte) (j : Job), TurnNext (.teStore k) s s0 → s.te = some j →
    j.arrived[k]? = some b → k ∉ j.stored →
    (∀ i, j.req.dst = .reg i →
      ∃ t v, step s = .next t ∧ t = withReg { s0 with te := some { j with stored := k :: j.stored } } (.slot i) v ∧
        ∀ m, m < 32 → v.getLsbD m =
          if 8 * k ≤ m ∧ m < 8 * k + 8 then b.getLsbD (m - 8 * k) else (regValue s (.slot i)).getLsbD m) ∧
    (j.req.dst = .absent → step s = .next { s0 with te := some { j with stored := k :: j.stored } })

/-- R100, R102: `LDW` without `src`, from its step to its completion: the slot ends with the four received bytes, first
byte lowest, and four zero bytes were transmitted. The schedule and its turns are the model's own
(notes/assumptions/1.md, 15.md, 16.md). -/
def Obligations.LoadWordReceivesLowestByteFirst : Prop :=
  ∀ (s : State) (i : Slot) (dst : Word) (b0 b1 b2 b3 alt : Byte),
    s.sched = [.dispatch, .teTake 0, .teSend alt, .teReceive b0, .teStore 0, .teTake 1, .teSend alt, .teReceive b1,
      .teStore 1, .teTake 2, .teSend alt, .teReceive b2, .teStore 2, .teTake 3, .teSend alt, .teReceive b3, .teStore 3,
      .teDone] →
    s.phase = .run → 0 < s.rem.toInt → s.pos ≠ 0#32 → s.errCnt = s.errBase →
    decode (bytesAt s.mem s.pos) = .ok (.ldw (.slot i) 0#32 dst, []) →
    ∃ v : Word, v.toNat = b0.toNat + 256 * b1.toNat + 65536 * b2.toNat + 16777216 * b3.toNat ∧
      core.run 18 s = .next (withReg { s with
        pos := s.pos + 12#32, rem := s.rem - 1#16, sched := [], te := none, inflight := none
        trace := [.tx 3 0#8, .tx 2 0#8, .tx 1 0#8, .tx 0 0#8] ++ s.trace } (.slot i) v)

/-- R104: `LDH` without `src`, from its step to its completion, even when the bytes are stored in the other order: the
slot ends with the two received bytes, zero-extended. The schedule and its turns are the model's own
(notes/assumptions/1.md, 15.md, 16.md). -/
def Obligations.LoadHalfWordReceivesZeroExtended : Prop :=
  ∀ (s : State) (i : Slot) (dst : Word) (b0 b1 alt : Byte),
    s.sched = [.dispatch, .teReceive b0, .teReceive b1, .teStore 1, .teTake 1, .teTake 0, .teSend alt, .teSend alt,
      .teStore 0, .teDone] →
    s.phase = .run → 0 < s.rem.toInt → s.pos ≠ 0#32 → s.errCnt = s.errBase →
    decode (bytesAt s.mem s.pos) = .ok (.ldh (.slot i) 0#32 dst, []) →
    ∃ v : Word, v.toNat = b0.toNat + 256 * b1.toNat ∧
      core.run 10 s = .next (withReg { s with
        pos := s.pos + 12#32, rem := s.rem - 1#16, sched := [], te := none, inflight := none
        trace := [.tx 1 0#8, .tx 0 0#8] ++ s.trace } (.slot i) v)

/-- R84, R93, R167: a transfer of zero bytes never completes: whatever turns follow, short of a reset, a reset of the
Transfer Engine or a completion it guarantees not to raise, the block stays in WAIT and busy. The turns are the model's
own (notes/assumptions/1.md, 14.md, 18.md). -/
def Obligations.ZeroByteTransferNeverCompletes : Prop :=
  ∀ (k : Nat) (s t : State) (j : Job), Inv s → s.phase = .wait → s.te = some j → j.req.n = 0#16 →
    (∀ turn ∈ s.sched, turn ≠ .strayDone ∧ turn ≠ .reset ∧ turn ≠ .teReset) →
    core.run k s = .next t → t.phase = .wait ∧ t.status = .busy ∧ t.te ≠ none

/-! ### The whole machine -/

/-- Every step keeps the invariant. The clauses on memory's form and on `te` are about the model's own representation
(notes/assumptions/3.md, 14.md). -/
def Obligations.EveryStepKeepsTheInvariant : Prop :=
  ∀ s t : State, Inv s → step s = .next t → Inv t

/-- The reset state meets the invariant. -/
def Obligations.ResetStateMeetsTheInvariant : Prop := Inv State.reset

/-- R39, R61, R175: no state makes the machine stop: every step of every agent answers a next state. That a turn without
an enabled step passes is the model's choice (notes/assumptions/20.md, 25.md). -/
def Obligations.EveryStepAnswersANextState : Prop :=
  ∀ s : State, ∃ t, step s = .next t

/-- R70, R71, R190: only a completion event, or reset, ends a wait. The turns are the model's own
(notes/assumptions/1.md, 18.md, 21.md). -/
def Obligations.OnlyCompletionEndsAWait : Prop :=
  ∀ s t : State, Inv s → s.phase = .wait → step s = .next t → t.phase ≠ .wait →
    ∃ turn s0, TurnNext turn s s0 ∧ (turn = .teDone ∨ turn = .teErrDone ∨ turn = .strayDone ∨ turn = .reset)

/-- R21, R168: the select line changes only in a dispatch step of `XFERS`, which inverts it, and at reset. -/
def Obligations.OnlyTransferWithToggleMovesTheSelectLine : Prop :=
  ∀ s t : State, step s = .next t → t.sel ≠ s.sel →
    (∃ s0 reg len src dst, Decoding s s0 ∧ decode (bytesAt s.mem s.pos) = .ok (.xfers reg len src dst, [])) ∨
    ∃ s0, TurnNext .reset s s0

/-- R20: the error counter changes only by an error event, which adds one, and at reset. -/
def Obligations.OnlyErrorEventsMoveTheErrorCounter : Prop :=
  ∀ s t : State, step s = .next t → t.errCnt ≠ s.errCnt →
    (t.errCnt = s.errCnt + 1#32 ∧ ∃ s0, TurnNext .teErr s s0 ∨ TurnNext .teErrDone s s0) ∨
    ∃ s0, TurnNext .reset s s0

/-- R17, R155: STATUS becomes busy only by an accepted submit, and idle only with the terminal event that carries the
outcome, or at reset. The trace is the model's own (notes/assumptions/19.md). -/
def Obligations.StatusMovesOnlyBySubmitAndTermination : Prop :=
  ∀ s t : State, step s = .next t →
    (s.status = .idle → t.status = .busy → ∃ p c s0, TurnNext (.submit p c) s s0) ∧
    (s.status = .busy → t.status = .idle →
      t.trace = .terminal t.result t.errKind :: s.trace ∨ ∃ s0, TurnNext .reset s s0)

/-- R12, R86, R162: a slot changes only in a dispatch step of an instruction that R12 lets write a slot and whose `reg`
field names that slot, in a received byte stored into that slot as the receive endpoint, and at reset. -/
def Obligations.OnlyHandlersAndReceivesWriteRegisters : Prop :=
  ∀ (s t : State) (r : Slot), step s = .next t → regValue t (.slot r) ≠ regValue s (.slot r) →
    (∃ s0 i, Decoding s s0 ∧ decode (bytesAt s.mem s.pos) = .ok (i, []) ∧
      (encodeRecord i).kind.toNat ∈ [2, 3, 4, 7, 8, 9, 10, 17] ∧ RegId.ofCode (encodeRecord i).reg = .slot r) ∨
    (∃ s0 k j, TurnNext (.teStore k) s s0 ∧ s.te = some j ∧ j.req.dst = .reg r) ∨
    ∃ s0, TurnNext .reset s s0

/-- R16, R86: the position, the count and the return slot change only in a dispatch step, in an accepted submit, and at
reset; and the saved return point only in a dispatch step of a branch, which saves its own address and the count after
it, and at reset. -/
def Obligations.OnlyDispatchAndSubmitMoveTheProgramCounter : Prop :=
  ∀ s t : State, step s = .next t →
    (t.pos ≠ s.pos ∨ t.rem ≠ s.rem ∨ t.rsValid ≠ s.rsValid →
      (∃ s0, InterpreterNext s s0 ∧ s.phase = .run) ∨
      (∃ s0 program count, TurnNext (.submit program count) s s0 ∧ s.status = .idle) ∨
      ∃ s0, TurnNext .reset s s0) ∧
    (t.rsRem ≠ s.rsRem ∨ t.rsPos ≠ s.rsPos →
      (∃ s0 i, Decoding s s0 ∧ decode (bytesAt s.mem s.pos) = .ok (i, []) ∧ isBranch i = true ∧
        t.rsValid = true ∧ t.rsRem = s.rem - 1#16 ∧ t.rsPos = s.pos) ∨
      ∃ s0, TurnNext .reset s s0)

/-- R35, R41: memory changes only in a store's dispatch step, a receive into a memory buffer, and a host write. -/
def Obligations.OnlyStoresReceivesAndTheHostWriteMemory : Prop :=
  ∀ s t : State, step s = .next t → t.mem ≠ s.mem →
    (∃ s0 reg src, Decoding s s0 ∧ src ≠ 0#32 ∧
      (decode (bytesAt s.mem s.pos) = .ok (.stw reg src, []) ∨ decode (bytesAt s.mem s.pos) = .ok (.sth reg src, []))) ∨
    (∃ s0 k j a, TurnNext (.teStore k) s s0 ∧ s.te = some j ∧ j.req.dst = .mem a) ∨
    ∃ s0 a b, TurnNext (.hostWrite a b) s s0
end

