-- ==== Sys2Proof/Laws/Decode.lean ====
section
/-! SUPPORT. The field and byte lemmas of the record layout (R33, R51, R52). -/

namespace Sys2Proof

theorem byteOfWord_wordOfBytes (w : Word) :
    wordOfBytes (byteOfWord w 0) (byteOfWord w 1) (byteOfWord w 2) (byteOfWord w 3) = w := by
  apply BitVec.eq_of_getLsbD_eq
  intro k hk
  show (byteOfWord w 3 ++ byteOfWord w 2 ++ byteOfWord w 1 ++ byteOfWord w 0 : BitVec (8 + 8 + 8 + 8)).getLsbD k = _
  simp only [byteOfWord, BitVec.getLsbD_append, BitVec.getLsbD_extractLsb']
  split
  · rename_i h; simp [h]
  · split
    · rename_i h1 h2
      rw [show 8 * 1 + (k - 8) = k by omega]; simp [h2]
    · split
      · rename_i h1 h2 h3
        rw [show 8 * 2 + (k - 8 - 8) = k by omega]; simp [h3]
      · rename_i h1 h2 h3
        rw [show 8 * 3 + (k - 8 - 8 - 8) = k by omega]; simp [show k - 8 - 8 - 8 < 8 by omega]

/-- The bytes of a word in memory, at the default byte order (R33). -/
theorem bytesOfWord_eq (w : Word) :
    bytesOfWord w = [byteOfWord w 0, byteOfWord w 1, byteOfWord w 2, byteOfWord w 3] := rfl

/-- The bytes of a word made of four bytes are those bytes. -/
theorem byteOfWord_of_wordOfBytes (b0 b1 b2 b3 : Byte) :
    byteOfWord (wordOfBytes b0 b1 b2 b3) 0 = b0 ∧ byteOfWord (wordOfBytes b0 b1 b2 b3) 1 = b1 ∧
    byteOfWord (wordOfBytes b0 b1 b2 b3) 2 = b2 ∧ byteOfWord (wordOfBytes b0 b1 b2 b3) 3 = b3 := by
  have key : ∀ k, (wordOfBytes b0 b1 b2 b3).getLsbD k =
      if k < 8 then b0.getLsbD k else if k - 8 < 8 then b1.getLsbD (k - 8)
      else if k - 8 - 8 < 8 then b2.getLsbD (k - 8 - 8) else b3.getLsbD (k - 8 - 8 - 8) := by
    intro k
    show (b3 ++ b2 ++ b1 ++ b0 : BitVec (8 + 8 + 8 + 8)).getLsbD k = _
    simp only [BitVec.getLsbD_append]
  refine ⟨?_, ?_, ?_, ?_⟩ <;>
    (apply BitVec.eq_of_getLsbD_eq
     intro k hk
     simp only [byteOfWord, BitVec.getLsbD_extractLsb', key, hk, decide_true, Bool.true_and])
  · rw [if_pos (by omega)]; congr 1; omega
  · rw [if_neg (by omega), if_pos (by omega)]; congr 1; omega
  · rw [if_neg (by omega), if_neg (by omega), if_pos (by omega)]; congr 1; omega
  · rw [if_neg (by omega), if_neg (by omega), if_neg (by omega)]; congr 1; omega

/-- A record's words give its fields back (R51, R52). -/
theorem Record.ofWords_toWords (r : Record) : Record.ofWords r.toWords.1 r.toWords.2.1 r.toWords.2.2 = r := by
  obtain ⟨kind, reg, len, src, dst⟩ := r
  have h : ∀ k, (show Word from len ++ reg ++ kind).getLsbD k =
      if k < 8 then kind.getLsbD k else if k - 8 < 8 then reg.getLsbD (k - 8) else len.getLsbD (k - 8 - 8) := by
    intro k
    show (len ++ reg ++ kind : BitVec (16 + 8 + 8)).getLsbD k = _
    simp only [BitVec.getLsbD_append]
  have h0 : (show Word from len ++ reg ++ kind).extractLsb' 0 8 = kind := by
    apply BitVec.eq_of_getLsbD_eq
    intro k hk
    simp only [BitVec.getLsbD_extractLsb', h, hk, decide_true, Bool.true_and, Nat.zero_add, if_true]
  have h1 : (show Word from len ++ reg ++ kind).extractLsb' 8 8 = reg := by
    apply BitVec.eq_of_getLsbD_eq
    intro k hk
    simp only [BitVec.getLsbD_extractLsb', h, hk, decide_true, Bool.true_and]
    rw [if_neg (by omega), if_pos (by omega)]; congr 1; omega
  have h2 : (show Word from len ++ reg ++ kind).extractLsb' 16 16 = len := by
    apply BitVec.eq_of_getLsbD_eq
    intro k hk
    simp only [BitVec.getLsbD_extractLsb', h, hk, decide_true, Bool.true_and]
    rw [if_neg (by omega), if_neg (by omega)]; congr 1; omega
  simp only [Record.ofWords, Record.toWords]
  exact congr (congr (congr (congr (congrArg Record.mk h0) h1) h2) rfl) rfl

/-- Decoding the bytes of three words, whatever bytes follow, is decoding the record of those words (R50, R51). -/
theorem decode_bytesOfWords (w0 w1 w2 : Word) (rest : List Byte) :
    decode (bytesOfWord w0 ++ bytesOfWord w1 ++ bytesOfWord w2 ++ rest) =
      match decodeRecord (.ofWords w0 w1 w2) with
      | .ok i => .ok (i, rest)
      | .error e => .error e := by
  cases h : decodeRecord (.ofWords w0 w1 w2) <;>
    simp only [bytesOfWord_eq, List.cons_append, List.nil_append, decode, byteOfWord_wordOfBytes, h]

/-- The kind code of a record is its first byte (R51). -/
theorem Record.ofWords_kind (b0 b1 b2 b3 : Byte) (w1 w2 : Word) :
    (Record.ofWords (wordOfBytes b0 b1 b2 b3) w1 w2).kind = b0 :=
  (byteOfWord_of_wordOfBytes b0 b1 b2 b3).1

/-- The code of a kind is the code of no other kind (R55). -/
@[simp] theorem Kind.ofCode_kindCode (k : Kind) : Kind.ofCode (Config.kindCode k) = some k := by cases k <;> rfl

/-- A kind's code is a number from 0 to 17 (R55). -/
theorem Config.kindCode_le (k : Kind) : (Config.kindCode k).toNat ≤ 17 := by cases k <;> decide

/-- Every number from 0 to 17 is the code of a kind, the one at its place in R55's table. -/
theorem Config.kindCode_of_le (c : Byte) (h : c.toNat ≤ 17) :
    ∃ k, Config.kindCode k = c ∧ Kind.all[c.toNat]? = some k := by
  have hc : c = BitVec.ofNat 8 c.toNat := by simp
  generalize c.toNat = n at h hc
  subst hc
  interval_cases n <;> exact ⟨_, rfl, rfl⟩

/-- A code outside the defined set is the code of no kind (R60). -/
theorem Kind.ofCode_of_gt (c : Byte) (h : 17 < c.toNat) : Kind.ofCode c = none := by
  unfold Kind.ofCode
  rw [List.find?_eq_none]
  intro k _ hk
  have hk : Config.kindCode k = c := by simpa using hk
  have := Config.kindCode_le k
  rw [hk] at this
  omega

/-- The kind of a code by the code's number (R55, R60). -/
theorem Kind.ofCode_eq (c : Byte) : Kind.ofCode c = Kind.all[c.toNat]? := by
  by_cases h : c.toNat ≤ 17
  · obtain ⟨k, rfl, hk⟩ := Config.kindCode_of_le c h
    rw [Kind.ofCode_kindCode, hk]
  · rw [Kind.ofCode_of_gt c (by omega), List.getElem?_eq_none (by simp only [Kind.all, List.length]; omega)]

/-- At the default width a reference field is the address it names (R51, D1). -/
@[simp] theorem addressOfWord_eq (w : Word) : addressOfWord w = w := by simp [addressOfWord]

/-- At the default width an address is the field that holds it (R51, D1). -/
@[simp] theorem wordOfAddress_eq (a : Address) : wordOfAddress a = a := by simp [wordOfAddress]

/-- A register identifier's code gives it back, when it is well formed (R53). -/
theorem RegId.ofCode_toCode (reg : RegId) (h : reg.wellFormed = true) : RegId.ofCode reg.toCode = reg := by
  cases reg with
  | slot i => cases i <;> rfl
  | none => rfl
  | unassigned code =>
    simp only [RegId.wellFormed, Bool.and_eq_true, bne_iff_ne] at h
    simp [RegId.ofCode, RegId.toCode, h.1.1, h.1.2, h.2]

/-- The decoder by the number of the kind code, as R55 lists them, at the default configuration. -/
theorem decodeRecord_eq (r : Record) :
    decodeRecord r =
      match r.kind.toNat with
      | 0 => .ok (.xfer (.ofCode r.reg) r.len r.src r.dst)
      | 1 => .ok (.xfers (.ofCode r.reg) r.len r.src r.dst)
      | 2 => .ok (.ldw (.ofCode r.reg) r.src r.dst)
      | 3 => .ok (.ldwr (.ofCode r.reg) r.len)
      | 4 => .ok (.ldh (.ofCode r.reg) r.src r.dst)
      | 5 => .ok (.stw (.ofCode r.reg) r.src)
      | 6 => .ok (.sth (.ofCode r.reg) r.src)
      | 7 => .ok (.add (.ofCode r.reg) r.len)
      | 8 => .ok (.and (.ofCode r.reg) r.src)
      | 9 => .ok (.shr (.ofCode r.reg) r.len)
      | 10 => .ok (.shl (.ofCode r.reg) r.len)
      | 11 => .ok (.br r.len r.src)
      | 12 => .ok (.brz (.ofCode r.reg) r.len r.src)
      | 13 => .ok (.brnz (.ofCode r.reg) r.len r.src)
      | 14 => .ok (.jmp r.len)
      | 15 => .ok (.jz (.ofCode r.reg) r.len r.src)
      | 16 => .ok (.jnz (.ofCode r.reg) r.len r.src)
      | 17 => .ok (.unlk (.ofCode r.reg))
      | _ => .error (.invalidKind r.kind) := by
  simp only [decodeRecord, Kind.ofCode_eq, addressOfWord_eq]
  generalize r.kind.toNat = n
  by_cases h : n < 18
  · interval_cases n <;> rfl
  · obtain ⟨m, rfl⟩ := Nat.exists_eq_add_of_le' (Nat.le_of_not_lt h)
    rfl

namespace Machine

/-- The record at an address, read byte by byte (R52). -/
theorem Memory.fetch_kind (m : Memory) (a : Word) : (m.fetch a).kind = m.read a := Record.ofWords_kind _ _ _ _ _ _

/-- Decoding the twelve bytes at an address is decoding the fetched record (R50, R52). -/
theorem decode_bytesAt (m : Memory) (a : Word) :
    decode (bytesAt m a) = match decodeRecord (m.fetch a) with
      | .ok i => .ok (i, [])
      | .error e => .error e := by
  have h : ∀ x y z : Nat, x + y = z → a + BitVec.ofNat 32 x + BitVec.ofNat 32 y = a + BitVec.ofNat 32 z := by
    intro x y z hz
    rw [BitVec.add_assoc, ← BitVec.ofNat_add, hz]
  have hf : m.fetch a = .ofWords
      (wordOfBytes (m.read (a + BitVec.ofNat 32 0)) (m.read (a + BitVec.ofNat 32 1)) (m.read (a + BitVec.ofNat 32 2))
        (m.read (a + BitVec.ofNat 32 3)))
      (wordOfBytes (m.read (a + BitVec.ofNat 32 4)) (m.read (a + BitVec.ofNat 32 5)) (m.read (a + BitVec.ofNat 32 6))
        (m.read (a + BitVec.ofNat 32 7)))
      (wordOfBytes (m.read (a + BitVec.ofNat 32 8)) (m.read (a + BitVec.ofNat 32 9)) (m.read (a + BitVec.ofNat 32 10))
        (m.read (a + BitVec.ofNat 32 11))) := by
    unfold Memory.fetch Memory.read32
    show Record.ofWords (wordOfBytes (m.read a) (m.read (a + 1#32)) (m.read (a + 2#32)) (m.read (a + 3#32)))
      (wordOfBytes (m.read (a + 4#32)) (m.read (a + 4#32 + 1#32)) (m.read (a + 4#32 + 2#32)) (m.read (a + 4#32 + 3#32)))
      (wordOfBytes (m.read (a + 8#32)) (m.read (a + 8#32 + 1#32)) (m.read (a + 8#32 + 2#32)) (m.read (a + 8#32 + 3#32))) = _
    rw [h 4 1 5 rfl, h 4 2 6 rfl, h 4 3 7 rfl, h 8 1 9 rfl, h 8 2 10 rfl, h 8 3 11 rfl,
      show a + BitVec.ofNat 32 0 = a from BitVec.add_zero a]
  rw [hf]
  rfl

end Machine

end Sys2Proof
end

