-- ==== Sys2Proof/Laws/Memory.lean ====
section
/-! SUPPORT. The laws of memory: every write keeps the canonical form, a read after a write to the same place gives the
value, and every other place reads as before. -/

namespace Sys2Proof.Machine

theorem Memory.wfFrom_cons (lo k : Nat) (b : Byte) (m : Memory) :
    Memory.wfFrom lo ((k, b) :: m) = true ↔
      lo ≤ k ∧ k < 2 ^ 32 ∧ b ≠ unlistedByte ∧ Memory.wfFrom (k + 1) m = true := by
  simp [Memory.wfFrom, and_assoc, Config.addressWidth]

theorem Memory.wfFrom_mono {lo hi : Nat} (h : lo ≤ hi) {m : Memory} (hm : Memory.wfFrom hi m = true) :
    Memory.wfFrom lo m = true := by
  cases m with
  | nil => rfl
  | cons c m =>
    rw [Memory.wfFrom_cons] at hm ⊢
    exact ⟨by omega, hm.2⟩

/-- Below the first address of a canonical memory everything reads as unlisted. -/
theorem Memory.lookup_of_lt {m : Memory} {lo a : Nat} (hm : Memory.wfFrom lo m = true) (ha : a < lo) :
    Memory.lookup m a = unlistedByte := by
  induction m generalizing lo with
  | nil => rfl
  | cons c m ih =>
    obtain ⟨k, b⟩ := c
    rw [Memory.wfFrom_cons] at hm
    have hne : a ≠ k := by omega
    rw [Memory.lookup, if_neg hne]
    exact ih hm.2.2.2 (by omega)

theorem Memory.wfFrom_insert {m : Memory} {lo a : Nat} {b : Byte} (hm : Memory.wfFrom lo m = true) (hlo : lo ≤ a)
    (ha : a < 2 ^ 32) : Memory.wfFrom lo (Memory.insert m a b) = true := by
  induction m generalizing lo with
  | nil =>
    simp only [Memory.insert]
    split
    · rfl
    · rename_i hb
      exact (Memory.wfFrom_cons _ _ _ _).2 ⟨hlo, ha, hb, rfl⟩
  | cons c m ih =>
    obtain ⟨k, d⟩ := c
    have hc := hm
    rw [Memory.wfFrom_cons] at hc
    simp only [Memory.insert]
    split
    · split
      · exact hm
      · rename_i hak hb
        exact (Memory.wfFrom_cons _ _ _ _).2
          ⟨hlo, ha, hb, (Memory.wfFrom_cons _ _ _ _).2 ⟨by omega, hc.2⟩⟩
    · split
      · rename_i hak
        split
        · exact Memory.wfFrom_mono (by omega) hc.2.2.2
        · rename_i hb
          subst hak
          exact (Memory.wfFrom_cons _ _ _ _).2 ⟨hlo, ha, hb, hc.2.2.2⟩
      · exact (Memory.wfFrom_cons _ _ _ _).2 ⟨hc.1, hc.2.1, hc.2.2.1, ih hc.2.2.2 (by omega)⟩

/-- What an insertion does to every lookup. -/
theorem Memory.lookup_insert {m : Memory} {lo a : Nat} {b : Byte} (hm : Memory.wfFrom lo m = true) (x : Nat) :
    Memory.lookup (Memory.insert m a b) x = if x = a then b else Memory.lookup m x := by
  induction m generalizing lo with
  | nil =>
    simp only [Memory.insert]
    split
    · rename_i hb
      simp [Memory.lookup, hb]
    · simp [Memory.lookup]
  | cons c m ih =>
    obtain ⟨k, d⟩ := c
    have hc := hm
    rw [Memory.wfFrom_cons] at hc
    have hlow : ∀ y, y ≤ k → Memory.lookup m y = unlistedByte :=
      fun y hy => Memory.lookup_of_lt hc.2.2.2 (by omega)
    simp only [Memory.insert]
    by_cases hak : a < k
    · rw [if_pos hak]
      by_cases hb : b = unlistedByte
      · rw [if_pos hb]
        by_cases hx : x = a
        · subst hx
          rw [if_pos rfl, Memory.lookup, if_neg (by omega), hlow _ (by omega), hb]
        · rw [if_neg hx]
      · rw [if_neg hb, Memory.lookup]
    · rw [if_neg hak]
      by_cases hk : a = k
      · subst hk
        rw [if_pos rfl]
        by_cases hb : b = unlistedByte
        · rw [if_pos hb]
          by_cases hx : x = a
          · subst hx
            rw [if_pos rfl, hlow _ (le_refl _), hb]
          · rw [if_neg hx, Memory.lookup, if_neg hx]
        · rw [if_neg hb, Memory.lookup]
          by_cases hx : x = a
          · rw [if_pos hx, if_pos hx]
          · rw [if_neg hx, if_neg hx, Memory.lookup, if_neg hx]
      · rw [if_neg hk, Memory.lookup, ih hc.2.2.2]
        by_cases hx : x = k
        · rw [if_pos hx, if_neg (by omega), Memory.lookup, if_pos hx]
        · rw [if_neg hx, Memory.lookup, if_neg hx]

theorem Memory.wf_nil : Memory.wf [] = true := rfl

theorem Memory.wf_write {m : Memory} (hm : m.wf = true) (a : Word) (b : Byte) : (m.write a b).wf = true :=
  Memory.wfFrom_insert hm (Nat.zero_le _) a.isLt

/-- A one-byte write, seen through the one-byte read (R33, R37). -/
theorem Memory.read_write {m : Memory} (hm : m.wf = true) (a x : Word) (b : Byte) :
    (m.write a b).read x = if x = a then b else m.read x := by
  unfold Memory.read Memory.write
  rw [Memory.lookup_insert hm]
  simp [BitVec.toNat_inj]

theorem Memory.wf_writeBytes {m : Memory} (hm : m.wf = true) (a : Word) (bs : List Byte) :
    (m.writeBytes a bs).wf = true := by
  induction bs generalizing m a with
  | nil => exact hm
  | cons b bs ih => exact ih (Memory.wf_write hm _ _) _

theorem Memory.wf_write16 {m : Memory} (hm : m.wf = true) (a : Word) (v : Half) : (m.write16 a v).wf = true :=
  Memory.wf_writeBytes hm _ _

theorem Memory.wf_write32 {m : Memory} (hm : m.wf = true) (a : Word) (v : Word) : (m.write32 a v).wf = true :=
  Memory.wf_writeBytes hm _ _

/-- A two-byte read, byte by byte (R33). -/
theorem Memory.read16_eq (m : Memory) (a : Word) :
    m.read16 a = halfOfBytes (m.read a) (m.read (a + 1#32)) := rfl

/-- A four-byte read, byte by byte (R33). -/
theorem Memory.read32_eq (m : Memory) (a : Word) :
    m.read32 a = wordOfBytes (m.read a) (m.read (a + 1#32)) (m.read (a + 2#32)) (m.read (a + 3#32)) := rfl

/-- A two-byte write is two one-byte writes, least significant byte first (R33). -/
theorem Memory.write16_eq (m : Memory) (a : Word) (v : Half) :
    m.write16 a v = (m.write a (v.extractLsb' 0 8)).write (a + 1#32) (v.extractLsb' 8 8) := rfl

/-- A four-byte write is four one-byte writes, least significant byte first (R33). -/
theorem Memory.write32_eq (m : Memory) (a : Word) (v : Word) :
    m.write32 a v = (((m.write a (byteOfWord v 0)).write (a + 1#32) (byteOfWord v 1)).write (a + 2#32)
      (byteOfWord v 2)).write (a + 3#32) (byteOfWord v 3) := by
  show (((m.write a (byteOfWord v 0)).write (a + 1#32) (byteOfWord v 1)).write (a + 1#32 + 1#32)
      (byteOfWord v 2)).write (a + 1#32 + 1#32 + 1#32) (byteOfWord v 3) = _
  rw [BitVec.add_assoc a, BitVec.add_assoc a]
  rfl

/-- A two-byte write, seen through the one-byte read (R33). -/
theorem Memory.read_write16 {m : Memory} (hm : m.wf = true) (a x : Word) (v : Half) :
    (m.write16 a v).read x =
      if x = a + 1#32 then v.extractLsb' 8 8 else if x = a then v.extractLsb' 0 8 else m.read x := by
  rw [Memory.write16_eq]
  rw [Memory.read_write (Memory.wf_write hm _ _), Memory.read_write hm]

/-- A four-byte write, seen through the one-byte read (R33). -/
theorem Memory.read_write32 {m : Memory} (hm : m.wf = true) (a x : Word) (v : Word) :
    (m.write32 a v).read x =
      if x = a + 3#32 then byteOfWord v 3 else if x = a + 2#32 then byteOfWord v 2
      else if x = a + 1#32 then byteOfWord v 1 else if x = a then byteOfWord v 0 else m.read x := by
  rw [Memory.write32_eq]
  rw [Memory.read_write (Memory.wf_write (Memory.wf_write (Memory.wf_write hm _ _) _ _) _ _),
    Memory.read_write (Memory.wf_write (Memory.wf_write hm _ _) _ _), Memory.read_write (Memory.wf_write hm _ _),
    Memory.read_write hm]

end Sys2Proof.Machine
end

