-- ==== Sys2Proof/Laws/State.lean ====
section
/-! SUPPORT. One lemma per field per named update of State, so that no later proof unfolds an update. -/

namespace Sys2Proof.Machine

@[simp] theorem advance_x0 (s : State) : (advance s).x0 = s.x0 := rfl
@[simp] theorem advance_x1 (s : State) : (advance s).x1 = s.x1 := rfl
@[simp] theorem advance_pos (s : State) : (advance s).pos = s.pos + Config.instrBytes := rfl
@[simp] theorem advance_rem (s : State) : (advance s).rem = s.rem := rfl
@[simp] theorem advance_rsValid (s : State) : (advance s).rsValid = s.rsValid := rfl
@[simp] theorem advance_rsRem (s : State) : (advance s).rsRem = s.rsRem := rfl
@[simp] theorem advance_rsPos (s : State) : (advance s).rsPos = s.rsPos := rfl
@[simp] theorem advance_status (s : State) : (advance s).status = s.status := rfl
@[simp] theorem advance_phase (s : State) : (advance s).phase = s.phase := rfl
@[simp] theorem advance_result (s : State) : (advance s).result = s.result := rfl
@[simp] theorem advance_errKind (s : State) : (advance s).errKind = s.errKind := rfl
@[simp] theorem advance_errCnt (s : State) : (advance s).errCnt = s.errCnt := rfl
@[simp] theorem advance_errBase (s : State) : (advance s).errBase = s.errBase := rfl
@[simp] theorem advance_sel (s : State) : (advance s).sel = s.sel := rfl
@[simp] theorem advance_inflight (s : State) : (advance s).inflight = s.inflight := rfl
@[simp] theorem advance_mem (s : State) : (advance s).mem = s.mem := rfl
@[simp] theorem advance_te (s : State) : (advance s).te = s.te := rfl
@[simp] theorem advance_sched (s : State) : (advance s).sched = s.sched := rfl
@[simp] theorem advance_trace (s : State) : (advance s).trace = s.trace := rfl

@[simp] theorem pending_x0 (s : State) : (pending s).x0 = s.x0 := rfl
@[simp] theorem pending_x1 (s : State) : (pending s).x1 = s.x1 := rfl
@[simp] theorem pending_pos (s : State) : (pending s).pos = s.pos + Config.instrBytes := rfl
@[simp] theorem pending_rem (s : State) : (pending s).rem = s.rem := rfl
@[simp] theorem pending_rsValid (s : State) : (pending s).rsValid = s.rsValid := rfl
@[simp] theorem pending_rsRem (s : State) : (pending s).rsRem = s.rsRem := rfl
@[simp] theorem pending_rsPos (s : State) : (pending s).rsPos = s.rsPos := rfl
@[simp] theorem pending_status (s : State) : (pending s).status = s.status := rfl
@[simp] theorem pending_phase (s : State) : (pending s).phase = .wait := rfl
@[simp] theorem pending_result (s : State) : (pending s).result = s.result := rfl
@[simp] theorem pending_errKind (s : State) : (pending s).errKind = s.errKind := rfl
@[simp] theorem pending_errCnt (s : State) : (pending s).errCnt = s.errCnt := rfl
@[simp] theorem pending_errBase (s : State) : (pending s).errBase = s.errBase := rfl
@[simp] theorem pending_sel (s : State) : (pending s).sel = s.sel := rfl
@[simp] theorem pending_inflight (s : State) : (pending s).inflight = s.inflight := rfl
@[simp] theorem pending_mem (s : State) : (pending s).mem = s.mem := rfl
@[simp] theorem pending_te (s : State) : (pending s).te = s.te := rfl
@[simp] theorem pending_sched (s : State) : (pending s).sched = s.sched := rfl
@[simp] theorem pending_trace (s : State) : (pending s).trace = s.trace := rfl

@[simp] theorem startTransfer_x0 (src dst : Endpoint) (n : Half) (s : State) : (startTransfer src dst n s).x0 = s.x0 := rfl
@[simp] theorem startTransfer_x1 (src dst : Endpoint) (n : Half) (s : State) : (startTransfer src dst n s).x1 = s.x1 := rfl
@[simp] theorem startTransfer_pos (src dst : Endpoint) (n : Half) (s : State) : (startTransfer src dst n s).pos = s.pos := rfl
@[simp] theorem startTransfer_rem (src dst : Endpoint) (n : Half) (s : State) : (startTransfer src dst n s).rem = s.rem := rfl
@[simp] theorem startTransfer_rsValid (src dst : Endpoint) (n : Half) (s : State) : (startTransfer src dst n s).rsValid = s.rsValid := rfl
@[simp] theorem startTransfer_rsRem (src dst : Endpoint) (n : Half) (s : State) : (startTransfer src dst n s).rsRem = s.rsRem := rfl
@[simp] theorem startTransfer_rsPos (src dst : Endpoint) (n : Half) (s : State) : (startTransfer src dst n s).rsPos = s.rsPos := rfl
@[simp] theorem startTransfer_status (src dst : Endpoint) (n : Half) (s : State) : (startTransfer src dst n s).status = s.status := rfl
@[simp] theorem startTransfer_phase (src dst : Endpoint) (n : Half) (s : State) : (startTransfer src dst n s).phase = s.phase := rfl
@[simp] theorem startTransfer_result (src dst : Endpoint) (n : Half) (s : State) : (startTransfer src dst n s).result = s.result := rfl
@[simp] theorem startTransfer_errKind (src dst : Endpoint) (n : Half) (s : State) : (startTransfer src dst n s).errKind = s.errKind := rfl
@[simp] theorem startTransfer_errCnt (src dst : Endpoint) (n : Half) (s : State) : (startTransfer src dst n s).errCnt = s.errCnt := rfl
@[simp] theorem startTransfer_errBase (src dst : Endpoint) (n : Half) (s : State) : (startTransfer src dst n s).errBase = s.errBase := rfl
@[simp] theorem startTransfer_sel (src dst : Endpoint) (n : Half) (s : State) : (startTransfer src dst n s).sel = s.sel := rfl
@[simp] theorem startTransfer_inflight (src dst : Endpoint) (n : Half) (s : State) : (startTransfer src dst n s).inflight = some ⟨src, dst, n⟩ := rfl
@[simp] theorem startTransfer_mem (src dst : Endpoint) (n : Half) (s : State) : (startTransfer src dst n s).mem = s.mem := rfl
@[simp] theorem startTransfer_te (src dst : Endpoint) (n : Half) (s : State) : (startTransfer src dst n s).te = some ⟨⟨src, dst, n⟩, [], 0, [], [], false⟩ := rfl
@[simp] theorem startTransfer_sched (src dst : Endpoint) (n : Half) (s : State) : (startTransfer src dst n s).sched = s.sched := rfl
@[simp] theorem startTransfer_trace (src dst : Endpoint) (n : Half) (s : State) : (startTransfer src dst n s).trace = s.trace := rfl

@[simp] theorem terminate_x0 (o : Result) (k : ErrKind) (s : State) : (terminate o k s).x0 = s.x0 := rfl
@[simp] theorem terminate_x1 (o : Result) (k : ErrKind) (s : State) : (terminate o k s).x1 = s.x1 := rfl
@[simp] theorem terminate_pos (o : Result) (k : ErrKind) (s : State) : (terminate o k s).pos = s.pos := rfl
@[simp] theorem terminate_rem (o : Result) (k : ErrKind) (s : State) : (terminate o k s).rem = s.rem := rfl
@[simp] theorem terminate_rsValid (o : Result) (k : ErrKind) (s : State) : (terminate o k s).rsValid = s.rsValid := rfl
@[simp] theorem terminate_rsRem (o : Result) (k : ErrKind) (s : State) : (terminate o k s).rsRem = s.rsRem := rfl
@[simp] theorem terminate_rsPos (o : Result) (k : ErrKind) (s : State) : (terminate o k s).rsPos = s.rsPos := rfl
@[simp] theorem terminate_status (o : Result) (k : ErrKind) (s : State) : (terminate o k s).status = .idle := rfl
@[simp] theorem terminate_phase (o : Result) (k : ErrKind) (s : State) : (terminate o k s).phase = .idle := rfl
@[simp] theorem terminate_result (o : Result) (k : ErrKind) (s : State) : (terminate o k s).result = o := rfl
@[simp] theorem terminate_errKind (o : Result) (k : ErrKind) (s : State) : (terminate o k s).errKind = k := rfl
@[simp] theorem terminate_errCnt (o : Result) (k : ErrKind) (s : State) : (terminate o k s).errCnt = s.errCnt := rfl
@[simp] theorem terminate_errBase (o : Result) (k : ErrKind) (s : State) : (terminate o k s).errBase = s.errBase := rfl
@[simp] theorem terminate_sel (o : Result) (k : ErrKind) (s : State) : (terminate o k s).sel = s.sel := rfl
@[simp] theorem terminate_inflight (o : Result) (k : ErrKind) (s : State) : (terminate o k s).inflight = s.inflight := rfl
@[simp] theorem terminate_mem (o : Result) (k : ErrKind) (s : State) : (terminate o k s).mem = s.mem := rfl
@[simp] theorem terminate_te (o : Result) (k : ErrKind) (s : State) : (terminate o k s).te = s.te := rfl
@[simp] theorem terminate_sched (o : Result) (k : ErrKind) (s : State) : (terminate o k s).sched = s.sched := rfl
@[simp] theorem terminate_trace (o : Result) (k : ErrKind) (s : State) : (terminate o k s).trace = .terminal o k :: s.trace := rfl

@[simp] theorem returnToCaller_x0 (s : State) : (returnToCaller s).x0 = s.x0 := rfl
@[simp] theorem returnToCaller_x1 (s : State) : (returnToCaller s).x1 = s.x1 := rfl
@[simp] theorem returnToCaller_pos (s : State) : (returnToCaller s).pos = s.rsPos + Config.instrBytes := rfl
@[simp] theorem returnToCaller_rem (s : State) : (returnToCaller s).rem = s.rsRem := rfl
@[simp] theorem returnToCaller_rsValid (s : State) : (returnToCaller s).rsValid = false := rfl
@[simp] theorem returnToCaller_rsRem (s : State) : (returnToCaller s).rsRem = s.rsRem := rfl
@[simp] theorem returnToCaller_rsPos (s : State) : (returnToCaller s).rsPos = s.rsPos := rfl
@[simp] theorem returnToCaller_status (s : State) : (returnToCaller s).status = s.status := rfl
@[simp] theorem returnToCaller_phase (s : State) : (returnToCaller s).phase = s.phase := rfl
@[simp] theorem returnToCaller_result (s : State) : (returnToCaller s).result = s.result := rfl
@[simp] theorem returnToCaller_errKind (s : State) : (returnToCaller s).errKind = s.errKind := rfl
@[simp] theorem returnToCaller_errCnt (s : State) : (returnToCaller s).errCnt = s.errCnt := rfl
@[simp] theorem returnToCaller_errBase (s : State) : (returnToCaller s).errBase = s.errBase := rfl
@[simp] theorem returnToCaller_sel (s : State) : (returnToCaller s).sel = s.sel := rfl
@[simp] theorem returnToCaller_inflight (s : State) : (returnToCaller s).inflight = s.inflight := rfl
@[simp] theorem returnToCaller_mem (s : State) : (returnToCaller s).mem = s.mem := rfl
@[simp] theorem returnToCaller_te (s : State) : (returnToCaller s).te = s.te := rfl
@[simp] theorem returnToCaller_sched (s : State) : (returnToCaller s).sched = s.sched := rfl
@[simp] theorem returnToCaller_trace (s : State) : (returnToCaller s).trace = s.trace := rfl

@[simp] theorem takeBranch_x0 (c : Half) (a : Address) (s : State) : (takeBranch c a s).x0 = s.x0 := rfl
@[simp] theorem takeBranch_x1 (c : Half) (a : Address) (s : State) : (takeBranch c a s).x1 = s.x1 := rfl
@[simp] theorem takeBranch_pos (c : Half) (a : Address) (s : State) : (takeBranch c a s).pos = a := rfl
@[simp] theorem takeBranch_rem (c : Half) (a : Address) (s : State) : (takeBranch c a s).rem = c := rfl
@[simp] theorem takeBranch_rsValid (c : Half) (a : Address) (s : State) : (takeBranch c a s).rsValid = true := rfl
@[simp] theorem takeBranch_rsRem (c : Half) (a : Address) (s : State) : (takeBranch c a s).rsRem = s.rem := rfl
@[simp] theorem takeBranch_rsPos (c : Half) (a : Address) (s : State) : (takeBranch c a s).rsPos = s.pos := rfl
@[simp] theorem takeBranch_status (c : Half) (a : Address) (s : State) : (takeBranch c a s).status = s.status := rfl
@[simp] theorem takeBranch_phase (c : Half) (a : Address) (s : State) : (takeBranch c a s).phase = s.phase := rfl
@[simp] theorem takeBranch_result (c : Half) (a : Address) (s : State) : (takeBranch c a s).result = s.result := rfl
@[simp] theorem takeBranch_errKind (c : Half) (a : Address) (s : State) : (takeBranch c a s).errKind = s.errKind := rfl
@[simp] theorem takeBranch_errCnt (c : Half) (a : Address) (s : State) : (takeBranch c a s).errCnt = s.errCnt := rfl
@[simp] theorem takeBranch_errBase (c : Half) (a : Address) (s : State) : (takeBranch c a s).errBase = s.errBase := rfl
@[simp] theorem takeBranch_sel (c : Half) (a : Address) (s : State) : (takeBranch c a s).sel = s.sel := rfl
@[simp] theorem takeBranch_inflight (c : Half) (a : Address) (s : State) : (takeBranch c a s).inflight = s.inflight := rfl
@[simp] theorem takeBranch_mem (c : Half) (a : Address) (s : State) : (takeBranch c a s).mem = s.mem := rfl
@[simp] theorem takeBranch_te (c : Half) (a : Address) (s : State) : (takeBranch c a s).te = s.te := rfl
@[simp] theorem takeBranch_sched (c : Half) (a : Address) (s : State) : (takeBranch c a s).sched = s.sched := rfl
@[simp] theorem takeBranch_trace (c : Half) (a : Address) (s : State) : (takeBranch c a s).trace = s.trace := rfl

@[simp] theorem toggleSelect_x0 (s : State) : (toggleSelect s).x0 = s.x0 := rfl
@[simp] theorem toggleSelect_x1 (s : State) : (toggleSelect s).x1 = s.x1 := rfl
@[simp] theorem toggleSelect_pos (s : State) : (toggleSelect s).pos = s.pos := rfl
@[simp] theorem toggleSelect_rem (s : State) : (toggleSelect s).rem = s.rem := rfl
@[simp] theorem toggleSelect_rsValid (s : State) : (toggleSelect s).rsValid = s.rsValid := rfl
@[simp] theorem toggleSelect_rsRem (s : State) : (toggleSelect s).rsRem = s.rsRem := rfl
@[simp] theorem toggleSelect_rsPos (s : State) : (toggleSelect s).rsPos = s.rsPos := rfl
@[simp] theorem toggleSelect_status (s : State) : (toggleSelect s).status = s.status := rfl
@[simp] theorem toggleSelect_phase (s : State) : (toggleSelect s).phase = s.phase := rfl
@[simp] theorem toggleSelect_result (s : State) : (toggleSelect s).result = s.result := rfl
@[simp] theorem toggleSelect_errKind (s : State) : (toggleSelect s).errKind = s.errKind := rfl
@[simp] theorem toggleSelect_errCnt (s : State) : (toggleSelect s).errCnt = s.errCnt := rfl
@[simp] theorem toggleSelect_errBase (s : State) : (toggleSelect s).errBase = s.errBase := rfl
@[simp] theorem toggleSelect_sel (s : State) : (toggleSelect s).sel = !s.sel := rfl
@[simp] theorem toggleSelect_inflight (s : State) : (toggleSelect s).inflight = s.inflight := rfl
@[simp] theorem toggleSelect_mem (s : State) : (toggleSelect s).mem = s.mem := rfl
@[simp] theorem toggleSelect_te (s : State) : (toggleSelect s).te = s.te := rfl
@[simp] theorem toggleSelect_sched (s : State) : (toggleSelect s).sched = s.sched := rfl
@[simp] theorem toggleSelect_trace (s : State) : (toggleSelect s).trace = s.trace := rfl

@[simp] theorem countDown_x0 (s : State) : (countDown s).x0 = s.x0 := rfl
@[simp] theorem countDown_x1 (s : State) : (countDown s).x1 = s.x1 := rfl
@[simp] theorem countDown_pos (s : State) : (countDown s).pos = s.pos := rfl
@[simp] theorem countDown_rem (s : State) : (countDown s).rem = s.rem - 1#16 := rfl
@[simp] theorem countDown_rsValid (s : State) : (countDown s).rsValid = s.rsValid := rfl
@[simp] theorem countDown_rsRem (s : State) : (countDown s).rsRem = s.rsRem := rfl
@[simp] theorem countDown_rsPos (s : State) : (countDown s).rsPos = s.rsPos := rfl
@[simp] theorem countDown_status (s : State) : (countDown s).status = s.status := rfl
@[simp] theorem countDown_phase (s : State) : (countDown s).phase = s.phase := rfl
@[simp] theorem countDown_result (s : State) : (countDown s).result = s.result := rfl
@[simp] theorem countDown_errKind (s : State) : (countDown s).errKind = s.errKind := rfl
@[simp] theorem countDown_errCnt (s : State) : (countDown s).errCnt = s.errCnt := rfl
@[simp] theorem countDown_errBase (s : State) : (countDown s).errBase = s.errBase := rfl
@[simp] theorem countDown_sel (s : State) : (countDown s).sel = s.sel := rfl
@[simp] theorem countDown_inflight (s : State) : (countDown s).inflight = s.inflight := rfl
@[simp] theorem countDown_mem (s : State) : (countDown s).mem = s.mem := rfl
@[simp] theorem countDown_te (s : State) : (countDown s).te = s.te := rfl
@[simp] theorem countDown_sched (s : State) : (countDown s).sched = s.sched := rfl
@[simp] theorem countDown_trace (s : State) : (countDown s).trace = s.trace := rfl

@[simp] theorem emit_x0 (o : Output) (s : State) : (emit o s).x0 = s.x0 := rfl
@[simp] theorem emit_x1 (o : Output) (s : State) : (emit o s).x1 = s.x1 := rfl
@[simp] theorem emit_pos (o : Output) (s : State) : (emit o s).pos = s.pos := rfl
@[simp] theorem emit_rem (o : Output) (s : State) : (emit o s).rem = s.rem := rfl
@[simp] theorem emit_rsValid (o : Output) (s : State) : (emit o s).rsValid = s.rsValid := rfl
@[simp] theorem emit_rsRem (o : Output) (s : State) : (emit o s).rsRem = s.rsRem := rfl
@[simp] theorem emit_rsPos (o : Output) (s : State) : (emit o s).rsPos = s.rsPos := rfl
@[simp] theorem emit_status (o : Output) (s : State) : (emit o s).status = s.status := rfl
@[simp] theorem emit_phase (o : Output) (s : State) : (emit o s).phase = s.phase := rfl
@[simp] theorem emit_result (o : Output) (s : State) : (emit o s).result = s.result := rfl
@[simp] theorem emit_errKind (o : Output) (s : State) : (emit o s).errKind = s.errKind := rfl
@[simp] theorem emit_errCnt (o : Output) (s : State) : (emit o s).errCnt = s.errCnt := rfl
@[simp] theorem emit_errBase (o : Output) (s : State) : (emit o s).errBase = s.errBase := rfl
@[simp] theorem emit_sel (o : Output) (s : State) : (emit o s).sel = s.sel := rfl
@[simp] theorem emit_inflight (o : Output) (s : State) : (emit o s).inflight = s.inflight := rfl
@[simp] theorem emit_mem (o : Output) (s : State) : (emit o s).mem = s.mem := rfl
@[simp] theorem emit_te (o : Output) (s : State) : (emit o s).te = s.te := rfl
@[simp] theorem emit_sched (o : Output) (s : State) : (emit o s).sched = s.sched := rfl
@[simp] theorem emit_trace (o : Output) (s : State) : (emit o s).trace = o :: s.trace := rfl

@[simp] theorem acceptSubmit_x0 (p : Address) (c : Half) (s : State) : (acceptSubmit p c s).x0 = s.x0 := rfl
@[simp] theorem acceptSubmit_x1 (p : Address) (c : Half) (s : State) : (acceptSubmit p c s).x1 = s.x1 := rfl
@[simp] theorem acceptSubmit_pos (p : Address) (c : Half) (s : State) : (acceptSubmit p c s).pos = p := rfl
@[simp] theorem acceptSubmit_rem (p : Address) (c : Half) (s : State) : (acceptSubmit p c s).rem = c := rfl
@[simp] theorem acceptSubmit_rsValid (p : Address) (c : Half) (s : State) : (acceptSubmit p c s).rsValid = false := rfl
@[simp] theorem acceptSubmit_rsRem (p : Address) (c : Half) (s : State) : (acceptSubmit p c s).rsRem = s.rsRem := rfl
@[simp] theorem acceptSubmit_rsPos (p : Address) (c : Half) (s : State) : (acceptSubmit p c s).rsPos = s.rsPos := rfl
@[simp] theorem acceptSubmit_status (p : Address) (c : Half) (s : State) : (acceptSubmit p c s).status = .busy := rfl
@[simp] theorem acceptSubmit_phase (p : Address) (c : Half) (s : State) : (acceptSubmit p c s).phase = .run := rfl
@[simp] theorem acceptSubmit_result (p : Address) (c : Half) (s : State) : (acceptSubmit p c s).result = .none := rfl
@[simp] theorem acceptSubmit_errKind (p : Address) (c : Half) (s : State) : (acceptSubmit p c s).errKind = .none := rfl
@[simp] theorem acceptSubmit_errCnt (p : Address) (c : Half) (s : State) : (acceptSubmit p c s).errCnt = s.errCnt := rfl
@[simp] theorem acceptSubmit_errBase (p : Address) (c : Half) (s : State) : (acceptSubmit p c s).errBase = s.errCnt := rfl
@[simp] theorem acceptSubmit_sel (p : Address) (c : Half) (s : State) : (acceptSubmit p c s).sel = s.sel := rfl
@[simp] theorem acceptSubmit_inflight (p : Address) (c : Half) (s : State) : (acceptSubmit p c s).inflight = s.inflight := rfl
@[simp] theorem acceptSubmit_mem (p : Address) (c : Half) (s : State) : (acceptSubmit p c s).mem = s.mem := rfl
@[simp] theorem acceptSubmit_te (p : Address) (c : Half) (s : State) : (acceptSubmit p c s).te = s.te := rfl
@[simp] theorem acceptSubmit_sched (p : Address) (c : Half) (s : State) : (acceptSubmit p c s).sched = s.sched := rfl
@[simp] theorem acceptSubmit_trace (p : Address) (c : Half) (s : State) : (acceptSubmit p c s).trace = s.trace := rfl

@[simp] theorem takeErr_x0 (s : State) : (takeErr s).x0 = s.x0 := rfl
@[simp] theorem takeErr_x1 (s : State) : (takeErr s).x1 = s.x1 := rfl
@[simp] theorem takeErr_pos (s : State) : (takeErr s).pos = s.pos := rfl
@[simp] theorem takeErr_rem (s : State) : (takeErr s).rem = s.rem := rfl
@[simp] theorem takeErr_rsValid (s : State) : (takeErr s).rsValid = s.rsValid := rfl
@[simp] theorem takeErr_rsRem (s : State) : (takeErr s).rsRem = s.rsRem := rfl
@[simp] theorem takeErr_rsPos (s : State) : (takeErr s).rsPos = s.rsPos := rfl
@[simp] theorem takeErr_status (s : State) : (takeErr s).status = s.status := rfl
@[simp] theorem takeErr_phase (s : State) : (takeErr s).phase = s.phase := rfl
@[simp] theorem takeErr_result (s : State) : (takeErr s).result = s.result := rfl
@[simp] theorem takeErr_errKind (s : State) : (takeErr s).errKind = s.errKind := rfl
@[simp] theorem takeErr_errCnt (s : State) : (takeErr s).errCnt = s.errCnt + 1 := rfl
@[simp] theorem takeErr_errBase (s : State) : (takeErr s).errBase = s.errBase := rfl
@[simp] theorem takeErr_sel (s : State) : (takeErr s).sel = s.sel := rfl
@[simp] theorem takeErr_inflight (s : State) : (takeErr s).inflight = s.inflight := rfl
@[simp] theorem takeErr_mem (s : State) : (takeErr s).mem = s.mem := rfl
@[simp] theorem takeErr_te (s : State) : (takeErr s).te = s.te := rfl
@[simp] theorem takeErr_sched (s : State) : (takeErr s).sched = s.sched := rfl
@[simp] theorem takeErr_trace (s : State) : (takeErr s).trace = s.trace := rfl

/-- The widths of an address and of the error counter as numerals (R4). -/
@[simp] theorem addressWidth_eq : Config.addressWidth = 32 := rfl
@[simp] theorem errorCounterWidth_eq : Config.errorCounterWidth = 32 := rfl

/-- Raising an error is the termination with outcome error (R176). -/
@[simp] theorem raiseError_eq (k : ErrKind) (s : State) : raiseError k s = terminate .error k s := rfl

@[simp] theorem setSlot_x0 (s : State) (i : Slot) (v : Word) : (s.setSlot i v).x0 = if i = .r0 then v else s.x0 := by cases i <;> rfl
@[simp] theorem wr_x0 (reg : RegId) (v : Word) (s : State) : (wr reg v s).x0 = if reg = .slot .r0 then v else s.x0 := by
  cases reg with
  | slot i => cases i <;> rfl
  | none => rfl
  | unassigned _ => rfl
@[simp] theorem setSlot_x1 (s : State) (i : Slot) (v : Word) : (s.setSlot i v).x1 = if i = .r1 then v else s.x1 := by cases i <;> rfl
@[simp] theorem wr_x1 (reg : RegId) (v : Word) (s : State) : (wr reg v s).x1 = if reg = .slot .r1 then v else s.x1 := by
  cases reg with
  | slot i => cases i <;> rfl
  | none => rfl
  | unassigned _ => rfl
@[simp] theorem setSlot_pos (s : State) (i : Slot) (v : Word) : (s.setSlot i v).pos = s.pos := by cases i <;> rfl
@[simp] theorem wr_pos (reg : RegId) (v : Word) (s : State) : (wr reg v s).pos = s.pos := by
  cases reg with
  | slot i => cases i <;> rfl
  | none => rfl
  | unassigned _ => rfl
@[simp] theorem setSlot_rem (s : State) (i : Slot) (v : Word) : (s.setSlot i v).rem = s.rem := by cases i <;> rfl
@[simp] theorem wr_rem (reg : RegId) (v : Word) (s : State) : (wr reg v s).rem = s.rem := by
  cases reg with
  | slot i => cases i <;> rfl
  | none => rfl
  | unassigned _ => rfl
@[simp] theorem setSlot_rsValid (s : State) (i : Slot) (v : Word) : (s.setSlot i v).rsValid = s.rsValid := by cases i <;> rfl
@[simp] theorem wr_rsValid (reg : RegId) (v : Word) (s : State) : (wr reg v s).rsValid = s.rsValid := by
  cases reg with
  | slot i => cases i <;> rfl
  | none => rfl
  | unassigned _ => rfl
@[simp] theorem setSlot_rsRem (s : State) (i : Slot) (v : Word) : (s.setSlot i v).rsRem = s.rsRem := by cases i <;> rfl
@[simp] theorem wr_rsRem (reg : RegId) (v : Word) (s : State) : (wr reg v s).rsRem = s.rsRem := by
  cases reg with
  | slot i => cases i <;> rfl
  | none => rfl
  | unassigned _ => rfl
@[simp] theorem setSlot_rsPos (s : State) (i : Slot) (v : Word) : (s.setSlot i v).rsPos = s.rsPos := by cases i <;> rfl
@[simp] theorem wr_rsPos (reg : RegId) (v : Word) (s : State) : (wr reg v s).rsPos = s.rsPos := by
  cases reg with
  | slot i => cases i <;> rfl
  | none => rfl
  | unassigned _ => rfl
@[simp] theorem setSlot_status (s : State) (i : Slot) (v : Word) : (s.setSlot i v).status = s.status := by cases i <;> rfl
@[simp] theorem wr_status (reg : RegId) (v : Word) (s : State) : (wr reg v s).status = s.status := by
  cases reg with
  | slot i => cases i <;> rfl
  | none => rfl
  | unassigned _ => rfl
@[simp] theorem setSlot_phase (s : State) (i : Slot) (v : Word) : (s.setSlot i v).phase = s.phase := by cases i <;> rfl
@[simp] theorem wr_phase (reg : RegId) (v : Word) (s : State) : (wr reg v s).phase = s.phase := by
  cases reg with
  | slot i => cases i <;> rfl
  | none => rfl
  | unassigned _ => rfl
@[simp] theorem setSlot_result (s : State) (i : Slot) (v : Word) : (s.setSlot i v).result = s.result := by cases i <;> rfl
@[simp] theorem wr_result (reg : RegId) (v : Word) (s : State) : (wr reg v s).result = s.result := by
  cases reg with
  | slot i => cases i <;> rfl
  | none => rfl
  | unassigned _ => rfl
@[simp] theorem setSlot_errKind (s : State) (i : Slot) (v : Word) : (s.setSlot i v).errKind = s.errKind := by cases i <;> rfl
@[simp] theorem wr_errKind (reg : RegId) (v : Word) (s : State) : (wr reg v s).errKind = s.errKind := by
  cases reg with
  | slot i => cases i <;> rfl
  | none => rfl
  | unassigned _ => rfl
@[simp] theorem setSlot_errCnt (s : State) (i : Slot) (v : Word) : (s.setSlot i v).errCnt = s.errCnt := by cases i <;> rfl
@[simp] theorem wr_errCnt (reg : RegId) (v : Word) (s : State) : (wr reg v s).errCnt = s.errCnt := by
  cases reg with
  | slot i => cases i <;> rfl
  | none => rfl
  | unassigned _ => rfl
@[simp] theorem setSlot_errBase (s : State) (i : Slot) (v : Word) : (s.setSlot i v).errBase = s.errBase := by cases i <;> rfl
@[simp] theorem wr_errBase (reg : RegId) (v : Word) (s : State) : (wr reg v s).errBase = s.errBase := by
  cases reg with
  | slot i => cases i <;> rfl
  | none => rfl
  | unassigned _ => rfl
@[simp] theorem setSlot_sel (s : State) (i : Slot) (v : Word) : (s.setSlot i v).sel = s.sel := by cases i <;> rfl
@[simp] theorem wr_sel (reg : RegId) (v : Word) (s : State) : (wr reg v s).sel = s.sel := by
  cases reg with
  | slot i => cases i <;> rfl
  | none => rfl
  | unassigned _ => rfl
@[simp] theorem setSlot_inflight (s : State) (i : Slot) (v : Word) : (s.setSlot i v).inflight = s.inflight := by cases i <;> rfl
@[simp] theorem wr_inflight (reg : RegId) (v : Word) (s : State) : (wr reg v s).inflight = s.inflight := by
  cases reg with
  | slot i => cases i <;> rfl
  | none => rfl
  | unassigned _ => rfl
@[simp] theorem setSlot_mem (s : State) (i : Slot) (v : Word) : (s.setSlot i v).mem = s.mem := by cases i <;> rfl
@[simp] theorem wr_mem (reg : RegId) (v : Word) (s : State) : (wr reg v s).mem = s.mem := by
  cases reg with
  | slot i => cases i <;> rfl
  | none => rfl
  | unassigned _ => rfl
@[simp] theorem setSlot_te (s : State) (i : Slot) (v : Word) : (s.setSlot i v).te = s.te := by cases i <;> rfl
@[simp] theorem wr_te (reg : RegId) (v : Word) (s : State) : (wr reg v s).te = s.te := by
  cases reg with
  | slot i => cases i <;> rfl
  | none => rfl
  | unassigned _ => rfl
@[simp] theorem setSlot_sched (s : State) (i : Slot) (v : Word) : (s.setSlot i v).sched = s.sched := by cases i <;> rfl
@[simp] theorem wr_sched (reg : RegId) (v : Word) (s : State) : (wr reg v s).sched = s.sched := by
  cases reg with
  | slot i => cases i <;> rfl
  | none => rfl
  | unassigned _ => rfl
@[simp] theorem setSlot_trace (s : State) (i : Slot) (v : Word) : (s.setSlot i v).trace = s.trace := by cases i <;> rfl
@[simp] theorem wr_trace (reg : RegId) (v : Word) (s : State) : (wr reg v s).trace = s.trace := by
  cases reg with
  | slot i => cases i <;> rfl
  | none => rfl
  | unassigned _ => rfl

end Sys2Proof.Machine
end

