-- ==== Sys2Proof/Laws/Ops.lean ====
section
/-! SUPPORT. One lemma for each shared operation that says once everything it can do. -/

namespace Sys2Proof.Machine

/-- Everything a jump can do: finish, fail, or move (R138, R139). -/
theorem takeJump_cases (dist : Half) (s : State) :
    (dist = 0x7FFF#16 ∧ takeJump dist s = terminate .finished .none s) ∨
    (dist = 0x8000#16 ∧ takeJump dist s = terminate .error .explicitFailureExit s) ∨
    (dist ≠ 0x7FFF#16 ∧ dist ≠ 0x8000#16 ∧
      takeJump dist s = { s with pos := s.pos + 12#32 * dist.signExtend 32, rem := s.rem - (dist - 1#16) }) := by
  unfold takeJump Config.exitOk Config.exitFail Config.instrBytes
  by_cases h1 : dist = 0x7FFF#16
  · exact .inl ⟨h1, by rw [if_pos h1]⟩
  · by_cases h2 : dist = 0x8000#16
    · exact .inr (.inl ⟨h2, by rw [if_neg h1, if_pos h2]; rfl⟩)
    · exact .inr (.inr ⟨h1, h2, by rw [if_neg h1, if_neg h2]; rfl⟩)

/-- Everything the completion gate can do (R181). -/
theorem takeDone_cases (s : State) :
    (s.phase = .wait ∧ s.errCnt = s.errBase ∧ takeDone s = { s with inflight := none, phase := .run }) ∨
    (s.phase = .wait ∧ s.errCnt ≠ s.errBase ∧
      takeDone s = terminate .error .transferHardwareError { s with inflight := none }) ∨
    (s.phase ≠ .wait ∧ takeDone s = s) := by
  unfold takeDone
  cases h : s.phase with
  | idle => exact .inr (.inr ⟨by simp, rfl⟩)
  | run => exact .inr (.inr ⟨by simp, rfl⟩)
  | wait =>
    by_cases he : s.errCnt = s.errBase
    · exact .inl ⟨rfl, he, by simp [he]⟩
    · exact .inr (.inl ⟨rfl, he, by simp [he]⟩)

/-- Everything a received byte can do at its endpoint (R161). -/
theorem putEndpointByte_cases (e : Endpoint) (k : Nat) (b : Byte) (s : State) :
    (e = .absent ∧ putEndpointByte e k b s = s) ∨
    (∃ a, e = .mem a ∧ putEndpointByte e k b s = { s with mem := s.mem.write (a + BitVec.ofNat 32 k) b }) ∨
    (∃ i, e = .reg i ∧ putEndpointByte e k b s = s.setSlot i (setByteOfWord (s.slot i) k b)) := by
  cases e with
  | absent => exact .inl ⟨rfl, rfl⟩
  | mem a => exact .inr (.inl ⟨a, rfl, rfl⟩)
  | reg i => exact .inr (.inr ⟨i, rfl, rfl⟩)

/-- Everything a submit can do (R151, R152). -/
theorem submit_cases (p : Address) (c : Half) (s : State) :
    (s.status = .idle ∧ submit p c s = emit .submitOk (acceptSubmit p c s)) ∨
    (s.status = .busy ∧ submit p c s = emit .submitBusy s) := by
  unfold submit
  cases h : s.status with
  | idle => exact .inl ⟨rfl, rfl⟩
  | busy => exact .inr ⟨rfl, rfl⟩

/-- Everything taking a byte of the transmit endpoint can do (R161). -/
theorem teTake_cases (k : Nat) (s : State) :
    (∃ j, s.te = some j ∧ k < j.req.n.toNat ∧ k ∉ j.taken.map Prod.fst ∧
      teTake k s = { s with te := some { j with taken := (k, endpointByte s j.req.src k) :: j.taken } }) ∨
    teTake k s = s := by
  unfold teTake
  cases h : s.te with
  | none => exact .inr rfl
  | some j =>
    by_cases hk : k < j.req.n.toNat ∧ k ∉ j.taken.map Prod.fst
    · exact .inl ⟨j, rfl, hk.1, hk.2, by simp only [if_pos hk]⟩
    · exact .inr (by simp only [if_neg hk])

/-- Everything a send can do: put the next byte in increasing order on the link (R161). -/
theorem teSend_cases (alt : Byte) (s : State) :
    (∃ j b, s.te = some j ∧ j.sent < j.req.n.toNat ∧ j.nextByte alt = some b ∧
      teSend alt s = emit (.tx j.sent b) { s with te := some { j with sent := j.sent + 1 } }) ∨
    teSend alt s = s := by
  unfold teSend
  cases h : s.te with
  | none => exact .inr rfl
  | some j =>
    by_cases hk : j.sent < j.req.n.toNat
    · cases hb : j.nextByte alt with
      | none => exact .inr (by simp only [if_pos hk, hb])
      | some b => exact .inl ⟨j, b, rfl, hk, hb, by simp only [if_pos hk, hb]⟩
    · exact .inr (by simp only [if_neg hk])

/-- Everything a receive can do: the next byte in increasing order arrives (R161). -/
theorem teReceive_cases (rx : Byte) (s : State) :
    (∃ j, s.te = some j ∧ j.arrived.length < j.req.n.toNat ∧
      teReceive rx s = { s with te := some { j with arrived := j.arrived ++ [rx] } }) ∨
    teReceive rx s = s := by
  unfold teReceive
  cases h : s.te with
  | none => exact .inr rfl
  | some j =>
    by_cases hk : j.arrived.length < j.req.n.toNat
    · exact .inl ⟨j, rfl, hk, by simp only [if_pos hk]⟩
    · exact .inr (by simp only [if_neg hk])

/-- Everything storing a received byte can do (R161). -/
theorem teStore_cases (k : Nat) (s : State) :
    (∃ j b, s.te = some j ∧ j.arrived[k]? = some b ∧ k ∉ j.stored ∧
      teStore k s = putEndpointByte j.req.dst k b { s with te := some { j with stored := k :: j.stored } }) ∨
    teStore k s = s := by
  unfold teStore
  cases h : s.te with
  | none => exact .inr rfl
  | some j =>
    cases hb : j.arrived[k]? with
    | none => exact .inr (by simp only [hb])
    | some b =>
      by_cases hk : k ∈ j.stored
      · exact .inr (by simp only [hb, if_pos hk])
      · exact .inl ⟨j, b, rfl, hb, hk, by simp only [hb, if_neg hk]⟩

/-- Everything the Transfer Engine's completion can do (R164). -/
theorem teDone_cases (s : State) :
    (∃ j, s.te = some j ∧ j.finished = true ∧ teDone s = takeDone { s with te := none }) ∨
    ((∀ j, s.te = some j → j.finished = false) ∧ teDone s = s) := by
  unfold teDone
  cases h : s.te with
  | none => exact .inr ⟨by simp, rfl⟩
  | some j =>
    cases hf : j.finished with
    | true => exact .inl ⟨j, rfl, hf, by simp only [hf, if_true]⟩
    | false => exact .inr ⟨by simp [hf], by simp [hf]⟩

/-- Everything a register read can give (R13). -/
theorem rd_cases (s : State) (reg : RegId) :
    (∃ i, reg = .slot i ∧ rd s reg = s.slot i) ∨ ((∀ i, reg ≠ .slot i) ∧ rd s reg = 0#32) := by
  cases reg with
  | slot i => exact .inl ⟨i, rfl, rfl⟩
  | none => exact .inr ⟨by simp, rfl⟩
  | unassigned c => exact .inr ⟨by simp, rfl⟩

/-- Everything a register write can do (R13). -/
theorem wr_cases (reg : RegId) (v : Word) (s : State) :
    (∃ i, reg = .slot i ∧ wr reg v s = s.setSlot i v) ∨ ((∀ i, reg ≠ .slot i) ∧ wr reg v s = s) := by
  cases reg with
  | slot i => exact .inl ⟨i, rfl, rfl⟩
  | none => exact .inr ⟨by simp, rfl⟩
  | unassigned c => exact .inr ⟨by simp, rfl⟩

theorem bufferAt_legal (a b : Address) (off : Word) (n : Half) :
    Transfer.legal ⟨bufferAt a off, bufferAt b off, n⟩ = true := by
  unfold bufferAt
  split <;> split <;> rfl

theorem loadEndpoint_legal (reg : RegId) (dst : Word) (n : Half) (hn : n = 2#16 ∨ n = 4#16) :
    Transfer.legal ⟨.absent, loadEndpoint reg dst, n⟩ = true := by
  cases reg with
  | slot i => rcases hn with rfl | rfl <;> rfl
  | none => unfold loadEndpoint bufferAt; dsimp only; split <;> rfl
  | unassigned c => unfold loadEndpoint bufferAt; dsimp only; split <;> rfl

theorem storeEndpoint_legal (reg : RegId) (n : Half) (hn : n = 2#16 ∨ n = 4#16) :
    Transfer.legal ⟨storeEndpoint reg, .absent, n⟩ = true := by
  cases reg with
  | slot i => rcases hn with rfl | rfl <;> rfl
  | none => rfl
  | unassigned c => rfl

/-- The instruction is of a kind that R12 lets write a slot, and its `reg` field holds the code of `reg`. -/
def writesRegister (i : Instr) (reg : RegId) : Prop :=
  (encodeRecord i).kind.toNat ∈ [2, 3, 4, 7, 8, 9, 10, 17] ∧ (encodeRecord i).reg = reg.toCode

/-- What a handler can do to the state it finds: write a slot, toggle the select line or write memory and go on; start
a transfer; branch; jump; or raise the one error a handler checks for. -/
inductive HandlerStep (i : Instr) (s t : State) : Prop where
  | register (reg : RegId) (v : Word) (hi : writesRegister i reg) (h : t = advance (wr reg v s))
  | goOn (h : t = advance s)
  | toggle (reg : RegId) (src dst : Word) (hi : i = .xfers reg 0#16 src dst) (h : t = advance (toggleSelect s))
  | store (m : Memory) (hm : s.mem.wf = true → m.wf = true) (h : t = advance { s with mem := m })
  | start (src dst : Endpoint) (n : Half) (hl : Transfer.legal ⟨src, dst, n⟩ = true)
      (h : t = pending (startTransfer src dst n s))
  | toggleStart (reg : RegId) (len : Half) (a b : Word) (hi : i = .xfers reg len a b) (src dst : Endpoint) (n : Half)
      (hl : Transfer.legal ⟨src, dst, n⟩ = true) (h : t = pending (startTransfer src dst n (toggleSelect s)))
  | clearStart (reg : RegId) (src dst : Endpoint) (n : Half) (hi : writesRegister i reg)
      (hl : Transfer.legal ⟨src, dst, n⟩ = true) (h : t = pending (startTransfer src dst n (wr reg 0#32 s)))
  | branch (count : Half) (target : Word) (hi : isBranch i = true) (h : t = takeBranch count target s)
  | jump (h : t = takeJump (distance i) s)
  | badRegister (h : t = terminate .error .invalidRegisterReference s)

/-- Every handler answers a next state, and that state is one of `HandlerStep`. -/
theorem exec_cases (i : Instr) (s : State) : ∃ t, exec i s = .next t ∧ HandlerStep i s t := by
  cases i with
  | xfer reg len src dst => exact ⟨_, rfl, .start _ _ _ (bufferAt_legal _ _ _ _) rfl⟩
  | xfers reg len src dst =>
    by_cases h : len = 0#16
    · subst h
      exact ⟨_, rfl, .toggle reg src dst rfl rfl⟩
    · refine ⟨_, ?_, .toggleStart reg len src dst rfl _ _ _ (bufferAt_legal src dst (rd (toggleSelect s) reg) len) rfl⟩
      simp only [exec, execXfers, if_neg h]
      rfl
  | ldw reg src dst =>
    simp only [exec, execLdw]
    split
    · exact ⟨_, rfl, .register _ _ ⟨by simp [encodeRecord, Config.kindCode], rfl⟩ rfl⟩
    · exact ⟨_, rfl, .start _ _ _ (loadEndpoint_legal _ _ _ (.inr rfl)) rfl⟩
  | ldwr reg sourceId =>
    simp only [exec, execLdwr]
    split
    · exact ⟨_, rfl, .register _ _ ⟨by simp [encodeRecord, Config.kindCode], rfl⟩ rfl⟩
    · exact ⟨_, rfl, .badRegister rfl⟩
  | ldh reg src dst =>
    simp only [exec, execLdh]
    split
    · exact ⟨_, rfl, .register _ _ ⟨by simp [encodeRecord, Config.kindCode], rfl⟩ rfl⟩
    · exact ⟨_, rfl, .clearStart _ _ _ _ ⟨by simp [encodeRecord, Config.kindCode], rfl⟩
        (loadEndpoint_legal _ _ _ (.inl rfl)) rfl⟩
  | stw reg src =>
    simp only [exec, execStw]
    split
    · exact ⟨_, rfl, .store _ (fun h => Memory.wf_write32 h _ _) rfl⟩
    · exact ⟨_, rfl, .start _ _ _ (storeEndpoint_legal _ _ (.inr rfl)) rfl⟩
  | sth reg src =>
    simp only [exec, execSth]
    split
    · exact ⟨_, rfl, .store _ (fun h => Memory.wf_write16 h _ _) rfl⟩
    · exact ⟨_, rfl, .start _ _ _ (storeEndpoint_legal _ _ (.inl rfl)) rfl⟩
  | add reg delta => exact ⟨_, rfl, .register _ _ ⟨by simp [encodeRecord, Config.kindCode], rfl⟩ rfl⟩
  | and reg mask => exact ⟨_, rfl, .register _ _ ⟨by simp [encodeRecord, Config.kindCode], rfl⟩ rfl⟩
  | shr reg amount => exact ⟨_, rfl, .register _ _ ⟨by simp [encodeRecord, Config.kindCode], rfl⟩ rfl⟩
  | shl reg amount => exact ⟨_, rfl, .register _ _ ⟨by simp [encodeRecord, Config.kindCode], rfl⟩ rfl⟩
  | br count target => exact ⟨_, rfl, .branch _ _ rfl rfl⟩
  | brz reg count target =>
    simp only [exec, execBrz]
    split
    · exact ⟨_, rfl, .branch _ _ rfl rfl⟩
    · exact ⟨_, rfl, .goOn rfl⟩
  | brnz reg count target =>
    simp only [exec, execBrnz]
    split
    · exact ⟨_, rfl, .goOn rfl⟩
    · exact ⟨_, rfl, .branch _ _ rfl rfl⟩
  | jmp dist => exact ⟨_, rfl, .jump rfl⟩
  | jz reg dist mask =>
    simp only [exec, execJz]
    split
    · exact ⟨_, rfl, .jump rfl⟩
    · exact ⟨_, rfl, .goOn rfl⟩
  | jnz reg dist mask =>
    simp only [exec, execJnz]
    split
    · exact ⟨_, rfl, .goOn rfl⟩
    · exact ⟨_, rfl, .jump rfl⟩
  | unlk reg => exact ⟨_, rfl, .register _ _ ⟨by simp [encodeRecord, Config.kindCode], rfl⟩ rfl⟩

/-- Everything a dispatch step can do (R72). -/
theorem dispatchStep_cases (s : State) :
    (s.rem.toInt ≤ 0 ∧ s.rsValid = true ∧ dispatchStep s = .next (returnToCaller s)) ∨
    (s.rem.toInt ≤ 0 ∧ s.rsValid = false ∧ dispatchStep s = .next (terminate .finished .none s)) ∨
    (0 < s.rem.toInt ∧ s.pos = 0#32 ∧ dispatchStep s = .next (terminate .error .nullProgram s)) ∨
    (0 < s.rem.toInt ∧ s.pos ≠ 0#32 ∧ (∃ e, fetched s = .error e) ∧
      dispatchStep s = .next (terminate .error .invalidInstructionKind s)) ∨
    (0 < s.rem.toInt ∧ s.pos ≠ 0#32 ∧ ∃ i, fetched s = .ok i ∧ dispatchStep s = exec i (countDown s)) := by
  unfold dispatchStep exhausted Config.null
  by_cases h1 : s.rem.toInt ≤ 0
  · by_cases h2 : s.rsValid = true
    · exact .inl ⟨h1, h2, by simp [h1, h2]⟩
    · exact .inr (.inl ⟨h1, by simpa using h2, by simp [h1, h2]⟩)
  · have h1' : 0 < s.rem.toInt := by omega
    by_cases h2 : s.pos = 0#32
    · exact .inr (.inr (.inl ⟨h1', h2, by simp [h1, h2]⟩))
    · cases h3 : fetched s with
      | error e => exact .inr (.inr (.inr (.inl ⟨h1', h2, ⟨e, rfl⟩, by simp [h1, h2]⟩)))
      | ok i => exact .inr (.inr (.inr (.inr ⟨h1', h2, i, rfl, by simp [h1, h2]⟩)))

/-- What the interpreter's turn can do (R71, R72). -/
theorem interpreterTurn_cases (s : State) :
    (s.phase ≠ .run ∧ interpreterTurn s = .next s) ∨ (s.phase = .run ∧ interpreterTurn s = dispatchStep s) := by
  unfold interpreterTurn
  cases h : s.phase with
  | idle => exact .inl ⟨by simp, rfl⟩
  | run => exact .inr ⟨rfl, rfl⟩
  | wait => exact .inl ⟨by simp, rfl⟩

/-- A step is the interpreter's turn on the state with its turn used up, or another agent's turn. -/
theorem step_cases (s : State) :
    (∃ s0, InterpreterNext s s0 ∧ step s = interpreterTurn s0) ∨
    (∃ t s0, t ≠ .dispatch ∧ TurnNext t s s0 ∧ step s = takeTurn t s0) := by
  unfold step nextTurn InterpreterNext TurnNext
  cases h : s.sched with
  | nil => exact .inl ⟨s, .inl ⟨rfl, rfl⟩, rfl⟩
  | cons t rest =>
    by_cases ht : t = .dispatch
    · subst ht
      exact .inl ⟨_, .inr ⟨rest, rfl, rfl⟩, rfl⟩
    · exact .inr ⟨t, _, ht, ⟨rest, rfl, rfl⟩, rfl⟩

/-- Who moves next is the schedule's alone: the interpreter's turn runs on the state with the turn used up. -/
theorem step_of_interpreterNext {s s0 : State} (h : InterpreterNext s s0) : step s = interpreterTurn s0 := by
  rcases h with ⟨h, rfl⟩ | ⟨rest, h, rfl⟩ <;> simp [step, nextTurn, h, takeTurn]

theorem step_of_turnNext {t : Turn} {s s0 : State} (h : TurnNext t s s0) : step s = takeTurn t s0 := by
  obtain ⟨rest, h, rfl⟩ := h
  simp [step, nextTurn, h]

end Sys2Proof.Machine
end

