-- ==== Sys2Proof/Laws/PerInstr.lean ====
section
/-! SUPPORT. Statements about every instruction as syntax, one lemma per constructor. -/

namespace Sys2Proof.Laws.EncodeShape

/-- An encoding is twelve bytes, the first of them a defined kind code (R50, R55). -/
def Statement (i : Instr) : Prop :=
  (encode i).length = 12 ∧ (encodeRecord i).kind.toNat ≤ 17 ∧ (encode i).head? = some (encodeRecord i).kind

theorem of_record (i : Instr) (h : (encodeRecord i).kind.toNat ≤ 17) : Statement i := by
  refine ⟨rfl, h, ?_⟩
  have hk : byteOfWord (encodeRecord i).toWords.1 0 = (encodeRecord i).kind :=
    congrArg Record.kind (Record.ofWords_toWords (encodeRecord i))
  exact congrArg some hk

theorem xfer (reg : RegId) (len : Half) (src : Address) (dst : Address) : Statement (.xfer reg len src dst) := of_record _ (Nat.le_of_ble_eq_true rfl)
theorem xfers (reg : RegId) (len : Half) (src : Address) (dst : Address) : Statement (.xfers reg len src dst) := of_record _ (Nat.le_of_ble_eq_true rfl)
theorem ldw (reg : RegId) (src : Address) (dst : Address) : Statement (.ldw reg src dst) := of_record _ (Nat.le_of_ble_eq_true rfl)
theorem ldwr (reg : RegId) (sourceId : Half) : Statement (.ldwr reg sourceId) := of_record _ (Nat.le_of_ble_eq_true rfl)
theorem ldh (reg : RegId) (src : Address) (dst : Address) : Statement (.ldh reg src dst) := of_record _ (Nat.le_of_ble_eq_true rfl)
theorem stw (reg : RegId) (src : Address) : Statement (.stw reg src) := of_record _ (Nat.le_of_ble_eq_true rfl)
theorem sth (reg : RegId) (src : Address) : Statement (.sth reg src) := of_record _ (Nat.le_of_ble_eq_true rfl)
theorem add (reg : RegId) (delta : Half) : Statement (.add reg delta) := of_record _ (Nat.le_of_ble_eq_true rfl)
theorem and (reg : RegId) (mask : Address) : Statement (.and reg mask) := of_record _ (Nat.le_of_ble_eq_true rfl)
theorem shr (reg : RegId) (amount : Half) : Statement (.shr reg amount) := of_record _ (Nat.le_of_ble_eq_true rfl)
theorem shl (reg : RegId) (amount : Half) : Statement (.shl reg amount) := of_record _ (Nat.le_of_ble_eq_true rfl)
theorem br (count : Half) (target : Address) : Statement (.br count target) := of_record _ (Nat.le_of_ble_eq_true rfl)
theorem brz (reg : RegId) (count : Half) (target : Address) : Statement (.brz reg count target) := of_record _ (Nat.le_of_ble_eq_true rfl)
theorem brnz (reg : RegId) (count : Half) (target : Address) : Statement (.brnz reg count target) := of_record _ (Nat.le_of_ble_eq_true rfl)
theorem jmp (dist : Half) : Statement (.jmp dist) := of_record _ (Nat.le_of_ble_eq_true rfl)
theorem jz (reg : RegId) (dist : Half) (mask : Address) : Statement (.jz reg dist mask) := of_record _ (Nat.le_of_ble_eq_true rfl)
theorem jnz (reg : RegId) (dist : Half) (mask : Address) : Statement (.jnz reg dist mask) := of_record _ (Nat.le_of_ble_eq_true rfl)
theorem unlk (reg : RegId) : Statement (.unlk reg) := of_record _ (Nat.le_of_ble_eq_true rfl)

end Sys2Proof.Laws.EncodeShape
end

