-- ==== Sys2Proof/Laws/Run.lean ====
section
/-! SUPPORT. Runs of many steps, one step at a time. -/

namespace Sys2Proof.Machine

theorem core_run_succ (M : Host.Core) (k : Nat) (s t : M.State) (h : M.step s = .next t) :
    M.run (k + 1) s = M.run k t := by
  simp [Host.Core.run, h]

/-- A run takes its first step, then the rest. -/
theorem run_succ (k : Nat) (s t : State) (h : step s = .next t) : core.run (k + 1) s = core.run k t :=
  core_run_succ core k s t h

/-- A run whose schedule is not empty takes its first turn, then the rest. -/
theorem run_turn (k : Nat) (s u : State) (turn : Turn) (rest : List Turn) (hs : s.sched = turn :: rest)
    (h : takeTurn turn { s with sched := rest } = .next u) : core.run (k + 1) s = core.run k u := by
  apply run_succ
  simp [step, nextTurn, hs, h]

end Sys2Proof.Machine
end

