-- ==== Sys2Proof/Laws/Vocabulary.lean ====
section
/-! SUPPORT. The vocabulary of Sys2Proof/Safety.lean, one lemma for each term, in terms of the machine's operations. -/

namespace Sys2Proof.Machine

theorem rd_eq_regValue (s : State) (reg : RegId) : rd s reg = regValue s reg := by
  cases reg with
  | slot i => cases i <;> simp [rd, regValue, State.slot]
  | none => simp [rd, regValue]
  | unassigned c => simp [rd, regValue]

theorem wr_eq_withReg (reg : RegId) (v : Word) (s : State) : wr reg v s = withReg s reg v := by
  cases reg with
  | slot i => cases i <;> simp [wr, withReg, State.setSlot]
  | none => simp [wr, withReg]
  | unassigned c => simp [wr, withReg]

theorem bufferAt_eq_bufferOf (ref off : Word) : bufferAt ref off = bufferOf ref off := by
  simp only [bufferAt, bufferOf, present, Config.null, addressOfWord_eq, bne_iff_ne, ne_eq]
  exact ite_not _ _ _

theorem advance_eq_continued (s : State) : advance s = continued s := rfl

theorem terminate_eq_ended (o : Result) (k : ErrKind) (s : State) : terminate o k s = ended s o k := rfl

theorem takeBranch_eq_branched (count : Half) (target : Word) (s : State) :
    takeBranch count target s = branched s count target := rfl

theorem pending_startTransfer_eq_started (src dst : Endpoint) (n : Half) (s : State) :
    pending (startTransfer src dst n s) = started s src dst n := rfl

theorem wordOfBytes_toNat (b0 b1 b2 b3 : Byte) :
    (wordOfBytes b0 b1 b2 b3).toNat = b0.toNat + 256 * b1.toNat + 65536 * b2.toNat + 16777216 * b3.toNat := by
  show (b3 ++ b2 ++ b1 ++ b0 : BitVec (8 + 8 + 8 + 8)).toNat = _
  simp only [BitVec.toNat_append]
  rw [← Nat.shiftLeft_add_eq_or_of_lt (by omega), ← Nat.shiftLeft_add_eq_or_of_lt (by omega),
    ← Nat.shiftLeft_add_eq_or_of_lt (by omega)]
  simp only [Nat.shiftLeft_eq]
  omega

theorem byteOfWord_toNat (w : Word) (k : Nat) : (byteOfWord w k).toNat = w.toNat / 2 ^ (8 * k) % 256 := by
  simp [byteOfWord, BitVec.extractLsb'_toNat, Nat.shiftRight_eq_div_pow]

/-- The word at an address is the one `MemRead(a, 4)` reads (R33). -/
theorem wordAt_iff (m : Memory) (a v : Word) : WordAt m a v ↔ v = m.read32 a := by
  unfold WordAt
  rw [Memory.read32_eq, ← wordOfBytes_toNat, BitVec.toNat_inj]

/-- The half-word at an address is the one `MemRead(a, 2)` reads (R33). -/
theorem halfAt_read16 (m : Memory) (a : Word) : HalfAt m a (m.read16 a).toNat := by
  unfold HalfAt
  show (m.read (a + 1#32) ++ m.read a : BitVec (8 + 8)).toNat = _
  rw [BitVec.toNat_append, ← Nat.shiftLeft_add_eq_or_of_lt (by omega), Nat.shiftLeft_eq]
  omega

theorem finished_iff_allMoved (j : Job) : j.finished = true ↔ AllMoved j := by
  simp [Job.finished, AllMoved, List.all_eq_true, and_assoc]

theorem isZero_iff (v : Word) : isZero v = true ↔ v.toNat = 0 := by
  simp [isZero, ← BitVec.toNat_inj]

/-- The interpreter's turn uses up at most the head of the schedule and changes nothing else. -/
theorem interpreterNext_fields {s s0 : State} (h : InterpreterNext s s0) : ∃ r, s0 = { s with sched := r } := by
  rcases h with ⟨h, rfl⟩ | ⟨rest, h, rfl⟩
  · exact ⟨s0.sched, rfl⟩
  · exact ⟨rest, rfl⟩

/-- The instruction the machine fetches is the one the twelve bytes decode to. -/
theorem fetched_iff (s : State) (i : Instr) : fetched s = .ok i ↔ decode (bytesAt s.mem s.pos) = .ok (i, []) := by
  rw [decode_bytesAt]
  unfold fetched
  cases decodeRecord (s.mem.fetch s.pos) <;> simp

end Sys2Proof.Machine
end

