-- ==== Sys2Proof/Tests/Slice0.lean ====
section
/-! SUPPORT. Tests on small fixed states, their expected results taken from 95_test_vectors.md (E, V numbers), and the
witnesses of the statements' hypotheses. -/

namespace Sys2Proof.Tests

open Sys2Proof Sys2Proof.Machine

/-! ### WellFormed: each check refuses an ill-formed term -/

theorem test_wf_refuses_code_of_r0 : (Instr.add (.unassigned 0x00) 1).wellFormed = false := by decide
theorem test_wf_refuses_code_of_r1 : (Instr.unlk (.unassigned 0x01)).wellFormed = false := by decide
theorem test_wf_refuses_code_of_none : (Instr.xfer (.unassigned 0xFF) 0 0 0).wellFormed = false := by decide

/-! ### Decoding: the bytes of V2 to V21, written out from R51, R55 and R62 -/

theorem test_decode_xfer : decode [0x00, 0x00, 0x08, 0x00, 0x00, 0x20, 0, 0, 0x00, 0x30, 0, 0] = .ok (.xfer (.slot .r0) 8 0x2000 0x3000, []) := by rfl
theorem test_decode_xfers : decode [0x01, 0xFF, 0, 0, 0, 0, 0, 0, 0, 0, 0, 0] = .ok (.xfers .none 0 0 0, []) := by rfl
theorem test_decode_ldw : decode [0x02, 0x01, 0, 0, 0x00, 0x40, 0, 0, 0, 0, 0, 0] = .ok (.ldw (.slot .r1) 0x4000 0, []) := by rfl
theorem test_decode_ldwr : decode [0x03, 0x00, 0x01, 0, 0, 0, 0, 0, 0, 0, 0, 0] = .ok (.ldwr (.slot .r0) 1, []) := by rfl
theorem test_decode_ldh : decode [0x04, 0x00, 0, 0, 0, 0, 0, 0, 0, 0, 0, 0] = .ok (.ldh (.slot .r0) 0 0, []) := by rfl
theorem test_decode_stw : decode [0x05, 0x00, 0, 0, 0x00, 0x50, 0, 0, 0, 0, 0, 0] = .ok (.stw (.slot .r0) 0x5000, []) := by rfl
theorem test_decode_sth : decode [0x06, 0x01, 0, 0, 0, 0, 0, 0, 0, 0, 0, 0] = .ok (.sth (.slot .r1) 0, []) := by rfl
theorem test_decode_add : decode [0x07, 0x00, 0xFF, 0xFF, 0, 0, 0, 0, 0, 0, 0, 0] = .ok (.add (.slot .r0) (-1), []) := by rfl
theorem test_decode_and : decode [0x08, 0x00, 0, 0, 0x04, 0x40, 0, 0, 0, 0, 0, 0] = .ok (.and (.slot .r0) 0x4004, []) := by rfl
theorem test_decode_shr : decode [0x09, 0x00, 0x04, 0, 0, 0, 0, 0, 0, 0, 0, 0] = .ok (.shr (.slot .r0) 4, []) := by rfl
theorem test_decode_shl : decode [0x0A, 0x01, 0x1F, 0, 0, 0, 0, 0, 0, 0, 0, 0] = .ok (.shl (.slot .r1) 31, []) := by rfl
theorem test_decode_br : decode [0x0B, 0xFF, 0x03, 0, 0x00, 0x20, 0, 0, 0, 0, 0, 0] = .ok (.br 3 0x2000, []) := by rfl
theorem test_decode_brz : decode [0x0C, 0x00, 0x01, 0, 0x00, 0x20, 0, 0, 0, 0, 0, 0] = .ok (.brz (.slot .r0) 1 0x2000, []) := by rfl
theorem test_decode_brnz : decode [0x0D, 0x01, 0x01, 0, 0x00, 0x20, 0, 0, 0, 0, 0, 0] = .ok (.brnz (.slot .r1) 1 0x2000, []) := by rfl
theorem test_decode_jmp : decode [0x0E, 0xFF, 0xFF, 0x7F, 0, 0, 0, 0, 0, 0, 0, 0] = .ok (.jmp 0x7FFF, []) := by rfl
theorem test_decode_jz : decode [0x0F, 0x00, 0x02, 0, 0x00, 0x40, 0, 0, 0, 0, 0, 0] = .ok (.jz (.slot .r0) 2 0x4000, []) := by rfl
theorem test_decode_jnz : decode [0x10, 0x00, 0xFF, 0xFF, 0, 0, 0, 0, 0, 0, 0, 0] = .ok (.jnz (.slot .r0) (-1) 0, []) := by rfl
theorem test_decode_unlk : decode [0x11, 0x00, 0, 0, 0, 0, 0, 0, 0, 0, 0, 0] = .ok (.unlk (.slot .r0), []) := by rfl
theorem test_decode_kind_18 : decode [0x12, 0, 0, 0, 0, 0, 0, 0, 0, 0, 0, 0] = .error (.invalidKind 0x12) := by rfl
theorem test_decode_eleven_bytes : decode [0x11, 0, 0, 0, 0, 0, 0, 0, 0, 0, 0] = .error .truncated := by rfl
theorem test_encode_add : encode (.add (.slot .r0) (-1)) = [0x07, 0x00, 0xFF, 0xFF, 0, 0, 0, 0, 0, 0, 0, 0] := by decide
theorem test_encode_xfer : encode (.xfer (.slot .r0) 8 0x2000 0x3000) = [0x00, 0x00, 0x08, 0x00, 0x00, 0x20, 0, 0, 0x00, 0x30, 0, 0] := by decide
theorem test_table_word : decodeTableWord 32 0xFFFF0007 = some (.add (.slot .r0) (-1)) := by decide

/-! ### One step of each instruction: the vectors of sections 3 to 7 -/

/-- The start state of 95_test_vectors.md: running at 0x1000, where the record stands, `rem` to go. -/
def at1000 (rem : Half) (record : List Byte) : State :=
  { State.reset with
    status := .busy, phase := .run, pos := 0x1000#32, rem := rem, mem := Memory.writeBytes [] 0x1000#32 record }

/-- The state with bytes written at an address. -/
def withData (s : State) (a : Word) (bytes : List Byte) : State := { s with mem := s.mem.writeBytes a bytes }

/-- A view of the state after an outcome. -/
def view {α : Type} (f : State → α) : Host.Outcome State Fault Refusal → Option α
  | .next s => some (f s)
  | .fault _ => none
  | .refused _ => none

theorem test_xfer_offsets : -- V22
    view (fun t => (t.inflight, t.pos, t.rem, t.phase)) (step { at1000 3 [0x00, 0x00, 0x08, 0x00, 0x00, 0x20, 0, 0, 0x00, 0x30, 0, 0] with x0 := 4 }) =
      some (some ⟨.mem 0x2004, .mem 0x3004, 8⟩, 0x100C, 2, .wait) := by decide
theorem test_xfer_wraps : -- V26
    view (fun t => t.inflight) (step { at1000 2 [0x00, 0x00, 0x10, 0x00, 0xF0, 0xFF, 0xFF, 0xFF, 0xE0, 0xFF, 0xFF, 0xFF] with x0 := 0x20 }) =
      some (some ⟨.mem 0x10, .mem 0x0, 16⟩) := by decide
theorem test_xfers_toggle_only : -- V27
    view (fun t => (t.sel, t.pos, t.rem, t.phase, t.inflight)) (step (at1000 2 [0x01, 0xFF, 0, 0, 0, 0, 0, 0, 0, 0, 0, 0])) =
      some (true, 0x100C, 1, .run, none) := by decide
theorem test_xfers_starts : -- V29
    view (fun t => (t.sel, t.inflight, t.phase)) (step (at1000 2 [0x01, 0xFF, 0x04, 0, 0x00, 0x20, 0, 0, 0x00, 0x20, 0, 0])) =
      some (true, some ⟨.mem 0x2000, .mem 0x2000, 4⟩, .wait) := by decide
theorem test_ldw_misaligned : -- V33
    view (fun t => t.x0) (step (withData (at1000 1 [0x02, 0, 0, 0, 0x01, 0x40, 0, 0, 0, 0, 0, 0]) 0x4000 [0x00, 0x11, 0x22, 0x33, 0x44])) =
      some 0x44332211 := by decide
theorem test_ldw_receive_prefers_slot : -- V34, its step
    view (fun t => (t.inflight, t.x0, t.phase)) (step { at1000 1 [0x02, 0, 0, 0, 0, 0, 0, 0, 0x00, 0x30, 0, 0] with x0 := 0xAAAAAAAA }) =
      some (some ⟨.absent, .reg .r0, 4⟩, 0xAAAAAAAA, .wait) := by decide
theorem test_ldwr_copies : -- V37
    view (fun t => (t.x1, t.pos, t.rem)) (step { at1000 1 [0x03, 0x01, 0, 0, 0, 0, 0, 0, 0, 0, 0, 0] with x0 := 0xCAFEF00D, x1 := 1 }) =
      some (0xCAFEF00D, 0x100C, 0) := by decide
theorem test_ldwr_bad_source : -- V38
    view (fun t => (t.result, t.errKind, t.x1, t.pos, t.rem)) (step { at1000 3 [0x03, 0x01, 0x02, 0, 0, 0, 0, 0, 0, 0, 0, 0] with x1 := 1 }) =
      some (.error, .invalidRegisterReference, 1, 0x1000, 2) := by decide
theorem test_ldh_zero_extends : -- V42
    view (fun t => t.x0) (step { withData (at1000 1 [0x04, 0, 0, 0, 0x00, 0x40, 0, 0, 0, 0, 0, 0]) 0x4000 [0xEF, 0xBE, 0xAD, 0xDE] with x0 := 0xFFFFFFFF }) =
      some 0xBEEF := by decide
theorem test_ldh_receive_clears : -- V43, its step
    view (fun t => (t.x1, t.inflight)) (step { at1000 1 [0x04, 0x01, 0, 0, 0, 0, 0, 0, 0, 0, 0, 0] with x1 := 0xFFFFFFFF }) =
      some (0, some ⟨.absent, .reg .r1, 2⟩) := by decide
theorem test_stw_bytes : -- V44
    view (fun t => (t.mem.read 0x5000, t.mem.read 0x5001, t.mem.read 0x5002, t.mem.read 0x5003)) (step { at1000 1 [0x05, 0, 0, 0, 0x00, 0x50, 0, 0, 0, 0, 0, 0] with x0 := 0x11223344 }) =
      some (0x44, 0x33, 0x22, 0x11) := by decide
theorem test_stw_transmit_ignores_dst : -- V47, its step
    view (fun t => t.inflight) (step (at1000 1 [0x05, 0x01, 0, 0, 0, 0, 0, 0, 0x00, 0x30, 0, 0])) =
      some (some ⟨.reg .r1, .absent, 4⟩) := by decide
theorem test_sth_two_bytes : -- V48
    view (fun t => t.mem.read32 0x5000) (step { withData (at1000 1 [0x06, 0, 0, 0, 0x00, 0x50, 0, 0, 0, 0, 0, 0]) 0x5000 [0xFF, 0xFF, 0xFF, 0xFF] with x0 := 0x11223344 }) =
      some 0xFFFF3344 := by decide
theorem test_add_signed : -- V58, E4
    view (fun t => t.x0) (step { at1000 1 [0x07, 0, 0xFF, 0xFF, 0, 0, 0, 0, 0, 0, 0, 0] with x0 := 10 }) = some 9 := by decide
theorem test_add_not_a_sentinel : -- V62
    view (fun t => (t.x0, t.phase)) (step { at1000 1 [0x07, 0, 0x00, 0x80, 0, 0, 0, 0, 0, 0, 0, 0] with x0 := 0x10000 }) = some (0x8000, .run) := by decide
theorem test_and_mask : -- V66
    view (fun t => t.x0) (step { withData (at1000 1 [0x08, 0, 0, 0, 0x04, 0x40, 0, 0, 0, 0, 0, 0]) 0x4004 [0x00, 0xFF, 0x00, 0x00] with x0 := 0x12345678 }) = some 0x5600 := by decide
theorem test_and_absent_mask : -- V68
    view (fun t => t.x0) (step { at1000 1 [0x08, 0, 0, 0, 0, 0, 0, 0, 0, 0, 0, 0] with x0 := 0x12345678 }) = some 0x12345678 := by decide
theorem test_shr_31 : -- V71
    view (fun t => t.x0) (step { at1000 1 [0x09, 0, 0x1F, 0, 0, 0, 0, 0, 0, 0, 0, 0] with x0 := 0x80000000 }) = some 1 := by decide
theorem test_shr_negative : -- V73
    view (fun t => t.x0) (step { at1000 1 [0x09, 0, 0xFF, 0xFF, 0, 0, 0, 0, 0, 0, 0, 0] with x0 := 0x80000000 }) = some 0 := by decide
theorem test_shl_4 : -- V74
    view (fun t => t.x0) (step { at1000 1 [0x0A, 0, 0x04, 0, 0, 0, 0, 0, 0, 0, 0, 0] with x0 := 0x12345678 }) = some 0x23456780 := by decide
theorem test_shl_32 : -- V76
    view (fun t => t.x0) (step { at1000 1 [0x0A, 0, 0x20, 0, 0, 0, 0, 0, 0, 0, 0, 0] with x0 := 0xFFFFFFFF }) = some 0 := by decide
theorem test_unlk : -- V79, E2
    view (fun t => t.x0) (step { at1000 1 [0x11, 0, 0, 0, 0, 0, 0, 0, 0, 0, 0, 0] with x0 := 0x1234 }) = some 0x3512 := by decide
theorem test_unlk_rollover : -- V82
    view (fun t => t.x0) (step { at1000 1 [0x11, 0, 0, 0, 0, 0, 0, 0, 0, 0, 0, 0] with x0 := 0xFFFFFFFF }) = some 0xFF := by decide
theorem test_br_saves : -- V88 at 0x1000
    view (fun t => (t.rsValid, t.rsRem, t.rsPos, t.pos, t.rem)) (step (at1000 5 [0x0B, 0xFF, 0x03, 0, 0x00, 0x20, 0, 0, 0, 0, 0, 0])) =
      some (true, 4, 0x1000, 0x2000, 3) := by decide
theorem test_brz_untaken : -- V91
    view (fun t => (t.pos, t.rem, t.rsRem, t.rsPos)) (step { at1000 5 [0x0C, 0, 0x01, 0, 0x00, 0x20, 0, 0, 0, 0, 0, 0] with x0 := 5, rsValid := true, rsRem := 7, rsPos := 0x3000 }) =
      some (0x100C, 4, 7, 0x3000) := by decide
theorem test_brnz_all_bits : -- V92
    view (fun t => (t.rsRem, t.pos, t.rem)) (step { at1000 5 [0x0D, 0x01, 0x01, 0, 0x00, 0x20, 0, 0, 0, 0, 0, 0] with x1 := 0x80000000 }) =
      some (4, 0x2000, 1) := by decide
theorem test_jmp_past_the_end : -- V102
    view (fun t => (t.pos, t.rem)) (step (at1000 2 [0x0E, 0xFF, 0x05, 0, 0, 0, 0, 0, 0, 0, 0, 0])) = some (0x103C, -3) := by decide
theorem test_jmp_fail : -- V84
    view (fun t => (t.result, t.errKind, t.rem, t.pos)) (step (at1000 6 [0x0E, 0xFF, 0x00, 0x80, 0, 0, 0, 0, 0, 0, 0, 0])) =
      some (.error, .explicitFailureExit, 5, 0x1000) := by decide
theorem test_jz_masked : -- V103
    view (fun t => (t.pos, t.rem)) (step { withData (at1000 6 [0x0F, 0, 0x02, 0, 0x00, 0x40, 0, 0, 0, 0, 0, 0]) 0x4000 [0xFF, 0, 0, 0] with x0 := 0x100 }) =
      some (0x1018, 4) := by decide
theorem test_jz_untaken_sentinel : -- V108
    view (fun t => (t.pos, t.rem, t.phase)) (step { at1000 6 [0x0F, 0, 0x00, 0x80, 0, 0, 0, 0, 0, 0, 0, 0] with x0 := 1 }) =
      some (0x100C, 5, .run) := by decide
theorem test_jnz_backward : -- V106 at 0x1000
    view (fun t => (t.pos, t.rem)) (step { at1000 2 [0x10, 0, 0xFF, 0xFF, 0, 0, 0, 0, 0, 0, 0, 0] with x0 := 3 }) = some (0xFF4, 3) := by decide
theorem test_jnz_exit_in_called_array : -- V111
    view (fun t => (t.result, t.rsValid, t.rem)) (step { at1000 2 [0x10, 0, 0xFF, 0x7F, 0, 0, 0, 0, 0, 0, 0, 0] with x0 := 1, rsValid := true, rsRem := 4 }) =
      some (.finished, true, 1) := by decide
theorem test_fetch_word_at_reset : -- the interface's placement, ADD R0, -1
    view (fun t => (t.x0, t.rem)) (step (State.reset.withFetchWord 32 0xFFFF0007)) = some (0xFFFFFFFF, 0) := by decide
theorem test_error_codes : -- R175
    [ErrKind.none, .invalidInstructionKind, .nullProgram, .invalidRegisterReference, .explicitFailureExit, .transferHardwareError].map ErrKind.code =
      [0, 1, 2, 3, 4, 5] := by decide

/-! ### Witnesses: every statement's hypotheses are met together, and every clause at the ends of its range -/

/-- `ADD R0, -1` at 0x1000. -/
def adding : State := at1000 3 [0x07, 0x00, 0xFF, 0xFF, 0, 0, 0, 0, 0, 0, 0, 0]

/-- A state that waits for the transfer of a job. -/
def waiting (job : Job) (sched : List Turn) : State :=
  { State.reset with
    status := .busy, phase := .wait, pos := 0x100C#32, rem := 2, inflight := some job.req, te := some job, sched := sched }

/-- A job of which no byte has moved. -/
def newJob (src dst : Endpoint) (n : Half) : Job := ⟨⟨src, dst, n⟩, [], 0, [], [], false⟩

theorem witness_DecodeOfEncodeIsTheInstruction :
    (Instr.jz (.unassigned 0x02) 0 0).wellFormed = true ∧ (Instr.jz (.unassigned 0xFE) 0 0).wellFormed = true := by decide

theorem witness_OnlyUndefinedKindsAreRefused :
    17 < (Record.mk 0x12 0 0 0 0).kind.toNat ∧ 17 < (Record.mk 0xFF 0 0 0 0).kind.toNat ∧
    (Record.mk 0x11 0 0 0 0).kind.toNat ≤ 17 ∧ (Record.mk 0x00 0 0 0 0).kind.toNat ≤ 17 := by decide

theorem witness_FieldsAKindDoesNotUseAreIgnored :
    let r : Record := ⟨17, 0, 0, 0, 0⟩
    let r' : Record := ⟨17, 0, 0xFFFF, 0xFFFFFFFF, 0xFFFFFFFF⟩
    r.kind = r'.kind ∧ (r.kind.toNat ∉ [11, 14] → r.reg = r'.reg) ∧
    (r.kind.toNat ∉ [2, 4, 5, 6, 8, 17] → r.len = r'.len) ∧ (r.kind.toNat ∉ [3, 7, 9, 10, 14, 17] → r.src = r'.src) ∧
    (r.kind.toNat ∈ [0, 1, 2, 4] → r.dst = r'.dst) ∧ r ≠ r' := by decide

theorem witness_StepRunsTheDecodedInstruction :
    Decoding adding adding ∧ decode (bytesAt adding.mem adding.pos) = .ok (.add (.slot .r0) (-1), []) :=
  ⟨⟨.inl ⟨rfl, rfl⟩, rfl, by decide, by decide⟩, by rfl⟩

theorem witness_StepRunsTheDecodedInstruction_scheduled :
    let s : State := { adding with sched := [.dispatch, .teErr], rem := 0x7FFF }
    Decoding s { s with sched := [.teErr] } ∧ decode (bytesAt s.mem s.pos) = .ok (.add (.slot .r0) (-1), []) :=
  ⟨⟨.inr ⟨_, rfl, rfl⟩, rfl, by decide, by decide⟩, by rfl⟩

theorem witness_ExhaustedArrayWithEmptySlotFinishes :
    let s : State := { adding with rem := 0 }
    let n : State := { adding with rem := 0x8000 }
    (InterpreterNext s s ∧ s.phase = .run ∧ s.rem.toInt ≤ 0 ∧ s.rsValid = false) ∧
    (InterpreterNext n n ∧ n.phase = .run ∧ n.rem.toInt ≤ 0 ∧ n.rsValid = false) :=
  ⟨⟨.inl ⟨rfl, rfl⟩, rfl, by decide, rfl⟩, ⟨.inl ⟨rfl, rfl⟩, rfl, by decide, rfl⟩⟩

theorem witness_ExhaustedArrayReturnsToTheCaller :
    let s : State := { adding with rem := 0, rsValid := true, rsRem := 2, rsPos := 0x1000 }
    InterpreterNext s s ∧ s.phase = .run ∧ s.rem.toInt ≤ 0 ∧ s.rsValid = true :=
  ⟨.inl ⟨rfl, rfl⟩, rfl, by decide, rfl⟩

theorem witness_NullPositionEndsWithNullProgram :
    let s : State := { adding with rem := 1, pos := 0 }
    InterpreterNext s s ∧ s.phase = .run ∧ 0 < s.rem.toInt ∧ s.pos = 0#32 :=
  ⟨.inl ⟨rfl, rfl⟩, rfl, by decide, rfl⟩

theorem witness_UndefinedKindEndsWithInvalidKind :
    let s := at1000 3 [0x12, 0, 0, 0, 0, 0, 0, 0, 0, 0, 0, 0]
    let u := at1000 3 [0xFF, 0xFF, 0xFF, 0xFF, 0xFF, 0xFF, 0xFF, 0xFF, 0xFF, 0xFF, 0xFF, 0xFF]
    (Decoding s s ∧ 17 < (s.mem.read s.pos).toNat) ∧ (Decoding u u ∧ 17 < (u.mem.read u.pos).toNat) :=
  ⟨⟨⟨.inl ⟨rfl, rfl⟩, rfl, by decide, by decide⟩, by decide⟩, ⟨⟨.inl ⟨rfl, rfl⟩, rfl, by decide, by decide⟩, by decide⟩⟩

theorem witness_InterpreterHasNoStepOutsideRun :
    (InterpreterNext State.reset State.reset ∧ State.reset.phase ≠ .run) ∧
    (let s := waiting (newJob .absent .absent 4) []
     InterpreterNext s s ∧ s.phase ≠ .run) :=
  ⟨⟨.inl ⟨rfl, rfl⟩, by decide⟩, ⟨.inl ⟨rfl, rfl⟩, by decide⟩⟩

theorem witness_SelectTogglesBeforeTheTransfer : (0 : Half) = 0#16 ∧ (1 : Half) ≠ 0#16 ∧ (0xFFFF : Half) ≠ 0#16 := by decide

theorem witness_LoadWordReadsTheWordAtItsOperand :
    let s := withData State.reset 0xFFFFFFFE [0x78, 0x56, 0x34, 0x12]
    (0xFFFFFFFE : Word) ≠ 0#32 ∧ WordAt s.mem 0xFFFFFFFE 0x12345678 := by unfold WordAt; decide

theorem witness_LoadHalfWordZeroExtends :
    let s := withData State.reset 0xFFFFFFFF [0xEF, 0xBE]
    (0xFFFFFFFF : Word) ≠ 0#32 ∧ HalfAt s.mem 0xFFFFFFFF (0xBEEF : Word).toNat := by unfold HalfAt; decide

theorem witness_LoadsAndStoresWithoutReference :
    (∃ i, RegId.slot .r1 = .slot i) ∧ (∀ i, RegId.none ≠ .slot i) ∧ (∀ i, RegId.unassigned 2 ≠ .slot i) ∧
    bufferOf 0 0 = .absent ∧ bufferOf 1 0 = .mem 1 := ⟨⟨_, rfl⟩, by simp, by simp, by decide, by decide⟩

theorem witness_LoadFromRegisterValidatesItsSource :
    (0 : Half).toInt = 0 ∧ (1 : Half).toInt = 1 ∧ 1 < (2 : Half).toInt ∧ 1 < (0x7FFF : Half).toInt ∧
    (0xFFFF : Half).toInt < 0 ∧ (0x8000 : Half).toInt < 0 := by decide

theorem witness_StoresWriteMemory :
    let s := withData State.reset 0xFFFFFFFE [1, 2, 3]
    (0xFFFFFFFE : Word) ≠ 0#32 ∧ (1 : Word) ≠ 0#32 ∧ s.mem.wf = true := by decide

theorem witness_AddIsSignedDeltaModulo :
    (((9 : Word).toNat : Int) = ((regValue { State.reset with x0 := 10 } (.slot .r0)).toNat + (-1 : Half).toInt) % 4294967296) ∧
    (((0xFFFF8000 : Word).toNat : Int) = ((regValue State.reset (.slot .r0)).toNat + (0x8000 : Half).toInt) % 4294967296) := by decide

theorem witness_AndMasksWithTheWordInMemory :
    let s := { withData State.reset 0x4004 [0x00, 0xFF] with x0 := 0x12345678 }
    MaskAt s.mem 0x4004 0xFF00 ∧ MaskAt s.mem 0 0xFFFFFFFF ∧
    (∀ k, k < 32 → (0x5600 : Word).getLsbD k = ((0xFF00 : Word).getLsbD k && (regValue s (.slot .r0)).getLsbD k)) := by
  unfold MaskAt WordAt; decide

theorem witness_ShiftsAtTheirEnds :
    let s := { State.reset with x0 := 0x80000001#32 }
    ((1 : Word).toNat = if (31 : Half).toNat < 32 then (regValue s (.slot .r0)).toNat / 2 ^ (31 : Half).toNat else 0) ∧
    ((0 : Word).toNat = if (32 : Half).toNat < 32 then (regValue s (.slot .r0)).toNat / 2 ^ (32 : Half).toNat else 0) ∧
    ((0x80000000 : Word).toNat = if (31 : Half).toNat < 32 then (regValue s (.slot .r0)).toNat * 2 ^ (31 : Half).toNat % 4294967296 else 0) ∧
    ((0 : Word).toNat = if (0xFFFF : Half).toNat < 32 then (regValue s (.slot .r0)).toNat * 2 ^ (0xFFFF : Half).toNat % 4294967296 else 0) := by decide

theorem witness_UnlockTransformFormula :
    let s := { State.reset with x0 := 0xFFFFFFFF#32 }
    (0xFF : Word).toNat = ((regValue s (.slot .r0)).toNat + 1) % 256 * 256 + (regValue s (.slot .r0)).toNat / 256 % 256 := by decide

theorem witness_BranchesTestTheWholeRegister :
    (regValue { State.reset with x1 := 0x80000000 } (.slot .r1)).toNat ≠ 0 ∧ (regValue State.reset (.slot .r1)).toNat = 0 ∧
    (regValue { State.reset with x1 := 0x80000000 } .none).toNat = 0 := by decide

theorem witness_JumpsTestUnderTheMask :
    let s := { withData State.reset 0x4000 [0xFF] with x0 := 0x100#32 }
    MaskAt s.mem 0x4000 0xFF ∧ (∀ k, k < 32 → ((regValue s (.slot .r0)).getLsbD k && (0xFF : Word).getLsbD k) = false) ∧
    MaskAt s.mem 0 0xFFFFFFFF ∧ ((regValue s (.slot .r0)).getLsbD 8 && (0xFFFFFFFF : Word).getLsbD 8) = true := by
  unfold MaskAt WordAt; decide

theorem witness_JumpTaken_clauses :
    (0x7FFF : Half).toInt = 32767 ∧ (0x8000 : Half).toInt = -32768 ∧
    (0x7FFE : Half).toInt ≠ 32767 ∧ (0x7FFE : Half).toInt ≠ -32768 ∧ (0x8001 : Half).toInt ≠ 32767 ∧ (0x8001 : Half).toInt ≠ -32768 := by decide

/-- `JMP 0` at 0x1000. -/
def selfJump : State := at1000 6 [0x0E, 0xFF, 0, 0, 0, 0, 0, 0, 0, 0, 0, 0]

theorem witness_JumpToItselfReturnsToTheSameState :
    Decoding selfJump selfJump ∧ decode (bytesAt selfJump.mem selfJump.pos) = .ok (.jmp 0#16, []) :=
  ⟨⟨.inl ⟨rfl, rfl⟩, rfl, by decide, by decide⟩, by rfl⟩

theorem witness_EndOfArrayStaysPut :
    Decoding selfJump selfJump ∧ decode (bytesAt selfJump.mem selfJump.pos) = .ok (.jmp 0#16, []) ∧
    isBranch (.jmp 0) = false ∧ -32768 ≤ selfJump.rem.toInt - (distance (.jmp 0)).toInt ∧
    selfJump.rem.toInt - (distance (.jmp 0)).toInt ≤ 32767 ∧ ∃ t, step selfJump = .next t ∧ t.phase ≠ .idle :=
  ⟨⟨.inl ⟨rfl, rfl⟩, rfl, by decide, by decide⟩, by rfl, rfl, by decide, by decide, _, rfl, by decide⟩

theorem witness_StraightLineProgramsRunTheirCount :
    let s : State := { adding with rem := 1 }
    s.phase = .run ∧ s.sched = [] ∧ s.rsValid = false ∧ s.rem.toInt = (1 : Nat) ∧
    (∀ (k : Nat) (u : State), k < 1 → core.run k s = .next u →
      u.pos ≠ 0#32 ∧ ∃ i, decode (bytesAt u.mem u.pos) = .ok (i, []) ∧ straightLine i = true) := by
  refine ⟨rfl, rfl, rfl, by decide, fun k u hk hu => ?_⟩
  obtain rfl : k = 0 := by omega
  injection hu with hu
  subst hu
  exact ⟨by decide, _, rfl, rfl⟩

theorem witness_SubmitWhenIdleIsAccepted :
    TurnNext (.submit 0x1000 (-5)) { State.reset with sched := [.submit 0x1000 (-5)] } State.reset ∧ State.reset.status = .idle :=
  ⟨⟨_, rfl, rfl⟩, rfl⟩

theorem witness_SubmitWhenBusyChangesNothing :
    TurnNext (.submit 0x8000 5) { adding with sched := [.submit 0x8000 5] } adding ∧ adding.status = .busy :=
  ⟨⟨_, rfl, rfl⟩, rfl⟩

theorem witness_HostTurnsChangeOnlyWhatTheyName :
    (∃ t, TurnNext .poll { adding with sched := [.poll] } adding ∧ step { adding with sched := [.poll] } = .next t) ∧
    (∃ t, TurnNext (.hostWrite 0 1) { adding with sched := [.hostWrite 0 1] } adding ∧
      step { adding with sched := [.hostWrite 0 1] } = .next t) ∧ adding.mem.wf = true ∧
    (∃ t, TurnNext (.submit 0 0) { adding with sched := [.submit 0 0] } adding ∧
      step { adding with sched := [.submit 0 0] } = .next t) :=
  ⟨⟨_, ⟨_, rfl, rfl⟩, rfl⟩, ⟨_, ⟨_, rfl, rfl⟩, rfl⟩, by decide, ⟨_, ⟨_, rfl, rfl⟩, rfl⟩⟩

theorem witness_ResetGivesTheResetValues : TurnNext .reset { adding with sched := [.reset] } adding := ⟨_, rfl, rfl⟩

theorem witness_ErrorEventOnlyCounts :
    TurnNext .teErr { adding with errCnt := 0xFFFFFFFF, sched := [.teErr] } { adding with errCnt := 0xFFFFFFFF } := ⟨_, rfl, rfl⟩

/-- A two-byte transfer that has moved both bytes. -/
def moved (sched : List Turn) : State :=
  waiting { newJob (.mem 0x2000) .absent 2 with taken := [(0, 7), (1, 8)], sent := 2, arrived := [1, 2], stored := [0, 1] } sched

theorem witness_CompletionGatesTheScheduler :
    TurnNext .teDone (moved [.teDone]) (moved []) ∧ (∃ j, (moved [.teDone]).te = some j ∧ AllMoved j) ∧
    (moved [.teDone]).phase = .wait ∧ (moved [.teDone]).errCnt = (moved [.teDone]).errBase ∧
    ({ moved [.teDone] with errCnt := 1 } : State).errCnt ≠ (moved [.teDone]).errBase ∧
    ({ moved [.teDone] with phase := .run } : State).phase ≠ .wait :=
  ⟨⟨_, rfl, rfl⟩, ⟨_, rfl, by unfold AllMoved; decide⟩, rfl, rfl, by decide, by decide⟩

theorem witness_AnyCompletionEventIsTakenByThePhase :
    TurnNext .strayDone (moved [.strayDone]) (moved []) ∧ TurnNext .strayDone { adding with sched := [.strayDone] } adding :=
  ⟨⟨_, rfl, rfl⟩, ⟨_, rfl, rfl⟩⟩

theorem witness_ErrorWithCompletionIsCountedFirst :
    let s := moved [.teErrDone]
    TurnNext .teErrDone s (moved []) ∧ s.phase = .wait ∧ s.errCnt = s.errBase ∧ ∃ j, s.te = some j ∧ AllMoved j :=
  ⟨⟨_, rfl, rfl⟩, rfl, rfl, _, rfl, by unfold AllMoved; decide⟩

theorem witness_CompletionWaitsForTheLastByte :
    let s := moved [.teErrDone]
    let u := waiting (newJob (.mem 0x2000) .absent 2) [.teErrDone]
    (TurnNext .teErrDone s (moved []) ∧ ∃ j, s.te = some j ∧ AllMoved j) ∧
    (TurnNext .teErrDone u { u with sched := [] } ∧ (∀ j, u.te = some j → ¬AllMoved j)) ∧
    TurnNext .teDone { u with sched := [.teDone] } { u with sched := [] } :=
  ⟨⟨⟨_, rfl, rfl⟩, _, rfl, by unfold AllMoved; decide⟩,
    ⟨⟨_, rfl, rfl⟩, by rintro j ⟨⟩; unfold AllMoved; decide⟩, ⟨_, rfl, rfl⟩⟩

theorem witness_TransmittedBytesComeFromTheEndpointInOrder :
    let s := withData (waiting { newJob (.mem 0xFFFFFFFF) .absent 2 with taken := [(0, 5)] } [.teTake 1]) 0 [0x9F]
    let r := { waiting (newJob (.reg .r1) .absent 4) [.teTake 3] with x1 := 0x44332211#32 }
    let z := waiting (newJob .absent .absent 4) [.teTake 0]
    (TurnNext (.teTake 1) s { s with sched := [] } ∧ s.mem.read (0xFFFFFFFF + BitVec.ofNat 32 1) = 0x9F ∧
      ∃ j, s.te = some j ∧ 1 < j.req.n.toNat ∧ 1 ∉ j.taken.map Prod.fst) ∧
    (TurnNext (.teTake 3) r { r with sched := [] } ∧
      (0x44 : Byte).toNat = (regValue r (.slot .r1)).toNat / 2 ^ (8 * 3) % 256 ∧
      ∃ j, r.te = some j ∧ 3 < j.req.n.toNat ∧ 3 ∉ j.taken.map Prod.fst) ∧
    (TurnNext (.teTake 0) z { z with sched := [] } ∧
      ∃ j, z.te = some j ∧ j.req.src = .absent ∧ 0 < j.req.n.toNat ∧ 0 ∉ j.taken.map Prod.fst) :=
  ⟨⟨⟨_, rfl, rfl⟩, by decide, _, rfl, by decide, by decide⟩, ⟨⟨_, rfl, rfl⟩, by decide, _, rfl, by decide, by decide⟩,
    ⟨_, rfl, rfl⟩, _, rfl, rfl, by decide, by decide⟩

theorem witness_SendsGoInIncreasingOrder :
    let u := waiting { newJob .absent .absent 2 with taken := [(0, 5), (1, 6)], sent := 1 } [.teSend 7]
    let v := waiting { newJob .absent .absent 2 with taken := [(1, 6)] } [.teSend 7]
    (TurnNext (.teSend 7) u { u with sched := [] } ∧ (∃ t, step u = .next t ∧ t.trace = .tx 1 6 :: u.trace) ∧
      ∃ j, u.te = some j ∧ j.erred = false ∧ j.sent < j.req.n.toNat ∧ j.taken.lookup j.sent = some 6) ∧
    (TurnNext (.teSend 7) v { v with sched := [] } ∧
      ∃ j, v.te = some j ∧ j.erred = false ∧ j.sent < j.req.n.toNat ∧ j.taken.lookup j.sent = none) :=
  ⟨⟨⟨_, rfl, rfl⟩, ⟨_, rfl, rfl⟩, _, rfl, rfl, by decide, rfl⟩, ⟨_, rfl, rfl⟩, _, rfl, rfl, by decide, rfl⟩

theorem test_send_waits_for_its_turn_on_the_link : -- R161: byte 1 is taken, byte 0 is not, so nothing goes out
    view (fun t => (t.trace, t.te.map Job.sent))
      (step (waiting { newJob (.mem 0x2000) .absent 2 with taken := [(1, 6)] } [.teSend 7])) = some ([], some 0) := by decide

theorem witness_ReceivedBytesArriveInOrderAndLandInMemory :
    let s := waiting { newJob .absent (.mem 0xFFFFFFFF) 3 with arrived := [0xAA, 0xBB] } [.teStore 1]
    TurnNext (.teStore 1) s { s with sched := [] } ∧ s.mem.wf = true ∧
      ∃ j, s.te = some j ∧ j.req.dst = .mem 0xFFFFFFFF ∧ j.arrived[1]? = some 0xBB ∧ 1 ∉ j.stored ∧
        j.arrived.length < j.req.n.toNat :=
  ⟨⟨_, rfl, rfl⟩, rfl, _, rfl, rfl, rfl, by decide, by decide⟩

theorem witness_ReceivedByteLandsInTheSlot :
    let s := waiting { newJob .absent (.reg .r0) 4 with arrived := [1, 2, 3, 4] } [.teStore 3]
    let z := waiting { newJob .absent .absent 4 with arrived := [1] } [.teStore 0]
    (TurnNext (.teStore 3) s { s with sched := [] } ∧
      ∃ j, s.te = some j ∧ j.req.dst = .reg .r0 ∧ j.arrived[3]? = some 4 ∧ 3 ∉ j.stored) ∧
    (TurnNext (.teStore 0) z { z with sched := [] } ∧
      ∃ j, z.te = some j ∧ j.req.dst = .absent ∧ j.arrived[0]? = some 1 ∧ 0 ∉ j.stored) :=
  ⟨⟨⟨_, rfl, rfl⟩, _, rfl, rfl, rfl, by decide⟩, ⟨⟨_, rfl, rfl⟩, _, rfl, rfl, rfl, by decide⟩⟩

theorem witness_LoadWordReceivesLowestByteFirst :
    let s : State := { at1000 1 [0x02, 0, 0, 0, 0, 0, 0, 0, 0x00, 0x30, 0, 0] with
      sched := [.dispatch, .teTake 0, .teSend 9, .teReceive 0x78, .teStore 0, .teTake 1, .teSend 9, .teReceive 0x56,
        .teStore 1, .teTake 2, .teSend 9, .teReceive 0x34, .teStore 2, .teTake 3, .teSend 9, .teReceive 0x12, .teStore 3,
        .teDone] }
    s.phase = .run ∧ 0 < s.rem.toInt ∧ s.pos ≠ 0#32 ∧ s.errCnt = s.errBase ∧
    decode (bytesAt s.mem s.pos) = .ok (.ldw (.slot .r0) 0#32 0x3000, []) :=
  ⟨rfl, by decide, by decide, rfl, by rfl⟩

theorem witness_LoadHalfWordReceivesZeroExtended :
    let s : State := { at1000 1 [0x04, 0x01, 0, 0, 0, 0, 0, 0, 0, 0, 0, 0] with
      sched := [.dispatch, .teReceive 0xAA, .teReceive 0xBB, .teStore 1, .teTake 1, .teTake 0, .teSend 9, .teSend 9,
        .teStore 0, .teDone] }
    s.phase = .run ∧ 0 < s.rem.toInt ∧ s.pos ≠ 0#32 ∧ s.errCnt = s.errBase ∧
    decode (bytesAt s.mem s.pos) = .ok (.ldh (.slot .r1) 0#32 0, []) :=
  ⟨rfl, by decide, by decide, rfl, by rfl⟩

theorem witness_ZeroByteTransferNeverCompletes :
    let s := waiting (newJob (.mem 0x2000) .absent 0) [.teDone, .teErrDone, .submit 0x8000 5, .dispatch]
    Inv s ∧ s.phase = .wait ∧ (∃ j, s.te = some j ∧ j.req.n = 0#16) ∧
    (∀ turn ∈ s.sched, turn ≠ .strayDone ∧ turn ≠ .reset ∧ turn ≠ .teReset) ∧ ∃ t : State, core.run 1 s = .next t :=
  ⟨by decide, rfl, ⟨_, rfl, rfl⟩, by decide, _, rfl⟩

theorem witness_EveryStepKeepsTheInvariant : Inv adding ∧ ∃ t, step adding = .next t := ⟨by decide, _, rfl⟩

theorem witness_OnlyCompletionEndsAWait :
    Inv (moved [.teDone]) ∧ (moved [.teDone]).phase = .wait ∧ ∃ t, step (moved [.teDone]) = .next t ∧ t.phase ≠ .wait :=
  ⟨by decide, rfl, { moved [] with te := none, inflight := none, phase := .run }, by rfl, by decide⟩

theorem witness_OnlyTransferWithToggleMovesTheSelectLine :
    let s := at1000 2 [0x01, 0xFF, 0, 0, 0, 0, 0, 0, 0, 0, 0, 0]
    ∃ t, step s = .next t ∧ t.sel ≠ s.sel := ⟨_, rfl, by decide⟩

theorem witness_OnlyErrorEventsMoveTheErrorCounter :
    let s : State := { adding with sched := [.teErr] }
    ∃ t, step s = .next t ∧ t.errCnt ≠ s.errCnt := ⟨_, rfl, by decide⟩

theorem witness_StatusMovesOnlyBySubmitAndTermination :
    (∃ t, step { State.reset with sched := [.submit 0 0] } = .next t ∧ t.status = .busy) ∧
    (∃ t, adding.status = .busy ∧ step { adding with rem := 0 } = .next t ∧ t.status = .idle) :=
  ⟨⟨_, rfl, rfl⟩, ⟨_, rfl, rfl, rfl⟩⟩

theorem witness_OnlyHandlersAndReceivesWriteRegisters :
    ∃ t, step adding = .next t ∧ regValue t (.slot .r0) ≠ regValue adding (.slot .r0) := ⟨_, rfl, by decide⟩

theorem witness_OnlyDispatchAndSubmitMoveTheProgramCounter :
    let s := at1000 5 [0x0B, 0xFF, 0x03, 0, 0x00, 0x20, 0, 0, 0, 0, 0, 0]
    ∃ t, step s = .next t ∧ t.pos ≠ s.pos ∧ t.rem ≠ s.rem ∧ t.rsValid ≠ s.rsValid ∧ t.rsRem ≠ s.rsRem ∧ t.rsPos ≠ s.rsPos :=
  ⟨_, rfl, by decide, by decide, by decide, by decide, by decide⟩

theorem witness_OnlyStoresReceivesAndTheHostWriteMemory :
    let s := { at1000 1 [0x05, 0, 0, 0, 0x00, 0x50, 0, 0, 0, 0, 0, 0] with x0 := 0x11223344#32 }
    ∃ t, step s = .next t ∧ t.mem ≠ s.mem := ⟨_, rfl, by decide⟩

end Sys2Proof.Tests
end

section
/-! The Transfer Engine's job: which of its moves keep it legal (R161, R162). -/

namespace Sys2Proof.Machine

theorem indicesBelow_nil (n : Nat) : indicesBelow n [] = true := rfl

theorem indicesBelow_cons (n k : Nat) (l : List Nat) :
    indicesBelow n (k :: l) = true ↔ k < n ∧ k ∉ l ∧ indicesBelow n l = true := by
  simp only [indicesBelow, Bool.and_eq_true, decide_eq_true_eq, List.nodup_cons, List.all_cons]
  tauto

theorem indicesBelow_mono {n m : Nat} {l : List Nat} (hnm : n ≤ m) (h : indicesBelow n l = true) :
    indicesBelow m l = true := by
  simp only [indicesBelow, Bool.and_eq_true, decide_eq_true_eq, List.all_eq_true] at h ⊢
  exact ⟨h.1, fun k hk => (h.2 k hk).trans_le hnm⟩

/-- The clauses of a legal job, each as a proposition (R161, R162). -/
theorem Job.legal_iff (j : Job) :
    j.legal = true ↔
      j.req.legal = true ∧ indicesBelow j.req.n.toNat (j.taken.map Prod.fst) = true ∧
      indicesBelow j.arrived.length j.stored = true ∧ j.sent ≤ j.req.n.toNat ∧
      j.arrived.length ≤ j.req.n.toNat ∧
      (j.erred = true ∨ ∀ k < j.sent, (j.taken.lookup k).isSome = true) := by
  simp [Job.legal, and_assoc]

/-- A job in which no byte has moved is legal when its transfer is. -/
theorem Job.legal_new {r : Transfer} (hr : r.legal = true) : Job.legal ⟨r, [], 0, [], [], false⟩ = true := by
  simp [Job.legal_iff, hr, indicesBelow_nil]

theorem Job.legal_take {j : Job} {k : Nat} (b : Byte) (hj : j.legal = true) (hk : k < j.req.n.toNat)
    (hnew : k ∉ j.taken.map Prod.fst) : Job.legal { j with taken := (k, b) :: j.taken } = true := by
  rw [Job.legal_iff] at hj ⊢
  obtain ⟨hreq, htaken, hstored, hsent, harrived, hsource⟩ := hj
  refine ⟨hreq, (indicesBelow_cons _ _ _).2 ⟨hk, hnew, htaken⟩, hstored, hsent, harrived, ?_⟩
  refine hsource.imp_right fun hall i hi => ?_
  rw [List.lookup_cons]
  split
  · rfl
  · exact hall i hi

/-- A byte that is sent was taken, or follows an error (R161, U9). -/
theorem Job.legal_send {j : Job} {alt b : Byte} (hj : j.legal = true) (hlt : j.sent < j.req.n.toNat)
    (hb : j.nextByte alt = some b) : Job.legal { j with sent := j.sent + 1 } = true := by
  rw [Job.legal_iff] at hj ⊢
  obtain ⟨hreq, htaken, hstored, -, harrived, hsource⟩ := hj
  refine ⟨hreq, htaken, hstored, hlt, harrived, ?_⟩
  cases herred : j.erred with
  | true => exact .inl rfl
  | false =>
    have hnext : j.taken.lookup j.sent = some b := by simpa [Job.nextByte, herred] using hb
    have hall : ∀ k < j.sent, (j.taken.lookup k).isSome = true := by simpa [herred] using hsource
    refine .inr fun k hk => ?_
    rcases Nat.lt_succ_iff_lt_or_eq.1 hk with hlt | rfl
    · exact hall k hlt
    · simp [hnext]

theorem Job.legal_receive {j : Job} (rx : Byte) (hj : j.legal = true) (hlt : j.arrived.length < j.req.n.toNat) :
    Job.legal { j with arrived := j.arrived ++ [rx] } = true := by
  rw [Job.legal_iff] at hj ⊢
  obtain ⟨hreq, htaken, hstored, hsent, -, hsource⟩ := hj
  exact ⟨hreq, htaken, indicesBelow_mono (by simp) hstored, hsent, by simpa using hlt, hsource⟩

theorem Job.legal_store {j : Job} {k : Nat} {b : Byte} (hj : j.legal = true) (hb : j.arrived[k]? = some b)
    (hnew : k ∉ j.stored) : Job.legal { j with stored := k :: j.stored } = true := by
  rw [Job.legal_iff] at hj ⊢
  obtain ⟨hreq, htaken, hstored, hrest⟩ := hj
  have hk : k < j.arrived.length := (List.getElem?_eq_some_iff.1 hb).1
  exact ⟨hreq, htaken, (indicesBelow_cons _ _ _).2 ⟨hk, hnew, hstored⟩, hrest⟩

theorem Job.legal_erred {j : Job} (hj : j.legal = true) : Job.legal { j with erred := true } = true := by
  rw [Job.legal_iff] at hj ⊢
  obtain ⟨hreq, htaken, hstored, hsent, harrived, -⟩ := hj
  exact ⟨hreq, htaken, hstored, hsent, harrived, .inl rfl⟩

end Sys2Proof.Machine
end

section
/-! What the operations without a lemma per field leave as it was: jumps, the completion gate, a received byte. -/

namespace Sys2Proof.Machine

/-- A field that neither an end of the program nor a move of the program counter touches is kept by a jump. -/
theorem takeJump_keeps {α : Type} (f : State → α) (hend : ∀ o k s, f (terminate o k s) = f s)
    (hmove : ∀ (s : State) p r, f { s with pos := p, rem := r } = f s) (dist : Half) (s : State) :
    f (takeJump dist s) = f s := by
  rcases takeJump_cases dist s with ⟨-, h⟩ | ⟨-, h⟩ | ⟨-, -, h⟩
  · rw [h, hend]
  · rw [h, hend]
  · rw [h, hmove]

/-- A field that neither an end of the program nor the end of a transfer touches is kept by the completion gate. -/
theorem takeDone_keeps {α : Type} (f : State → α) (hend : ∀ o k s, f (terminate o k s) = f s)
    (hgate : ∀ (s : State) fl p, f { s with inflight := fl, phase := p } = f s) (s : State) :
    f (takeDone s) = f s := by
  rcases takeDone_cases s with ⟨-, -, h⟩ | ⟨-, -, h⟩ | ⟨-, h⟩
  · rw [h, hgate]
  · rw [h, hend]
    exact hgate s none s.phase
  · rw [h]

/-- A field that neither a memory write nor a slot write touches is kept by a received byte. -/
theorem putEndpointByte_keeps {α : Type} (f : State → α) (hmem : ∀ (s : State) m, f { s with mem := m } = f s)
    (hslot : ∀ (s : State) i v, f (s.setSlot i v) = f s) (e : Endpoint) (k : Nat) (b : Byte) (s : State) :
    f (putEndpointByte e k b s) = f s := by
  rcases putEndpointByte_cases e k b s with ⟨-, h⟩ | ⟨a, -, h⟩ | ⟨i, -, h⟩
  · rw [h]
  · rw [h, hmem]
  · rw [h, hslot]

theorem slot_setSlot (s : State) (i r : Slot) (v : Word) : (s.setSlot i v).slot r = if r = i then v else s.slot r := by
  cases i <;> cases r <;> rfl

theorem slot_wr_of_ne {reg : RegId} {r : Slot} (h : reg ≠ .slot r) (v : Word) (s : State) :
    (wr reg v s).slot r = s.slot r := by
  rcases wr_cases reg v s with ⟨i, rfl, hw⟩ | ⟨-, hw⟩
  · have hne : r ≠ i := fun hri => h (by rw [hri])
    rw [hw, slot_setSlot, if_neg hne]
  · rw [hw]

theorem regValue_slot (s : State) (r : Slot) : regValue s (.slot r) = s.slot r := (rd_eq_regValue s (.slot r)).symm

end Sys2Proof.Machine
end

section
/-! The inversion of a step: everything the interpreter's turn and every other agent's turn can do to the state. -/

namespace Sys2Proof.Machine

/-- What the interpreter's turn can do: pass outside RUN; return to the caller; end the program; or run the handler of
the instruction at the position (R71, R72). -/
inductive InterpreterStep (s t : State) : Prop where
  | passes (hphase : s.phase ≠ .run) (h : t = s)
  | returns (hrun : s.phase = .run) (h : t = returnToCaller s)
  | ends (o : Result) (k : ErrKind) (hrun : s.phase = .run) (hk : k ≠ .none ↔ o = .error) (h : t = terminate o k s)
  | handles (i : Instr) (hrun : s.phase = .run) (hrem : 0 < s.rem.toInt) (hpos : s.pos ≠ 0#32)
      (hfetch : fetched s = .ok i) (h : HandlerStep i (countDown s) t)

/-- What the turn of another agent can do. The Transfer Engine's job is legal after it if it was before. -/
inductive AgentStep (turn : Turn) (s t : State) : Prop where
  | tells (o : Output) (h : t = emit o s)
  | submits (p : Address) (c : Half) (hturn : turn = .submit p c) (hidle : s.status = .idle)
      (h : t = emit .submitOk (acceptSubmit p c s))
  | writes (a : Address) (b : Byte) (hturn : turn = .hostWrite a b) (h : t = hostWrite a b s)
  | works (te : Option Job) (trace : List Output) (hj : s.te.all Job.legal = true → te.all Job.legal = true)
      (h : t = { s with te := te, trace := trace })
  | stores (k : Nat) (j : Job) (te : Option Job) (b : Byte) (hturn : turn = .teStore k) (hte : s.te = some j)
      (hj : s.te.all Job.legal = true → te.all Job.legal = true)
      (h : t = putEndpointByte j.req.dst k b { s with te := te })
  | completes (te : Option Job) (hturn : turn = .teDone ∨ turn = .strayDone)
      (hj : s.te.all Job.legal = true → te.all Job.legal = true) (h : t = takeDone { s with te := te })
  | errs (te : Option Job) (hturn : turn = .teErr ∨ turn = .teErrDone)
      (hj : s.te.all Job.legal = true → te.all Job.legal = true) (h : t = takeErr { s with te := te })
  | errsAndCompletes (hturn : turn = .teErrDone) (h : t = takeDone (takeErr { s with te := none }))
  | resets (hturn : turn = .reset) (h : t = blockReset s)

theorem dispatchStep_next {s t : State} (hrun : s.phase = .run) (h : dispatchStep s = .next t) :
    InterpreterStep s t := by
  have answer : ∀ {u}, dispatchStep s = .next u → t = u := fun hu => Host.Outcome.next.inj (h.symm.trans hu)
  rcases dispatchStep_cases s with ⟨-, -, hd⟩ | ⟨-, -, hd⟩ | ⟨-, -, hd⟩ | ⟨-, -, -, hd⟩ | ⟨hrem, hpos, i, hfetch, hd⟩
  · exact .returns hrun (answer hd)
  · exact .ends _ _ hrun (by simp) (answer hd)
  · exact .ends _ _ hrun (by simp) (answer hd)
  · exact .ends _ _ hrun (by simp) (answer hd)
  · obtain ⟨u, hu, hstep⟩ := exec_cases i (countDown s)
    exact .handles i hrun hrem hpos hfetch (answer (hd.trans hu) ▸ hstep)

theorem interpreterTurn_next {s t : State} (h : interpreterTurn s = .next t) : InterpreterStep s t := by
  rcases interpreterTurn_cases s with ⟨hphase, hi⟩ | ⟨hrun, hi⟩
  · exact .passes hphase (Host.Outcome.next.inj (h.symm.trans hi))
  · exact dispatchStep_next hrun (hi ▸ h)

/-- A job that replaces a job is legal when the replaced one being legal makes it so. -/
theorem all_legal_of_some {te : Option Job} {j j' : Job} (hte : te = some j) (hj : j.legal = true → j'.legal = true)
    (h : te.all Job.legal = true) : (some j').all Job.legal = true := by
  subst hte
  exact hj h

theorem submit_agentStep (p : Address) (c : Half) (s : State) : AgentStep (.submit p c) s (submit p c s) := by
  rcases submit_cases p c s with ⟨hidle, h⟩ | ⟨-, h⟩
  · exact .submits p c rfl hidle h
  · exact .tells _ h

theorem teTake_agentStep (k : Nat) (s : State) : AgentStep (.teTake k) s (teTake k s) := by
  rcases teTake_cases k s with ⟨j, hte, hk, hnew, h⟩ | h
  · exact .works _ s.trace (all_legal_of_some hte fun hj => Job.legal_take _ hj hk hnew) h
  · exact .works s.te s.trace id h

theorem teSend_agentStep (alt : Byte) (s : State) : AgentStep (.teSend alt) s (teSend alt s) := by
  rcases teSend_cases alt s with ⟨j, b, hte, hlt, hb, h⟩ | h
  · exact .works _ (.tx j.sent b :: s.trace) (all_legal_of_some hte fun hj => Job.legal_send hj hlt hb) h
  · exact .works s.te s.trace id h

theorem teReceive_agentStep (rx : Byte) (s : State) : AgentStep (.teReceive rx) s (teReceive rx s) := by
  rcases teReceive_cases rx s with ⟨j, hte, hlt, h⟩ | h
  · exact .works _ s.trace (all_legal_of_some hte fun hj => Job.legal_receive rx hj hlt) h
  · exact .works s.te s.trace id h

theorem teStore_agentStep (k : Nat) (s : State) : AgentStep (.teStore k) s (teStore k s) := by
  rcases teStore_cases k s with ⟨j, b, hte, hb, hnew, h⟩ | h
  · exact .stores k j _ b rfl hte (all_legal_of_some hte fun hj => Job.legal_store hj hb hnew) h
  · exact .works s.te s.trace id h

theorem teDone_agentStep (s : State) : AgentStep .teDone s (teDone s) := by
  rcases teDone_cases s with ⟨j, -, -, h⟩ | ⟨-, h⟩
  · exact .completes none (.inl rfl) (fun _ => rfl) h
  · exact .works s.te s.trace id h

/-- An error event marks the job, which stays legal (R165, U9). -/
theorem all_legal_erred (te : Option Job) (h : te.all Job.legal = true) :
    (te.map fun j => { j with erred := true }).all Job.legal = true := by
  cases te with
  | none => rfl
  | some j => exact Job.legal_erred h

theorem teErr_agentStep (s : State) : AgentStep .teErr s (teErr s) :=
  .errs _ (.inl rfl) (all_legal_erred s.te) rfl

theorem teErrDone_agentStep (s : State) : AgentStep .teErrDone s (teDone (teErr s)) := by
  rcases teDone_cases (teErr s) with ⟨j, -, -, h⟩ | ⟨-, h⟩
  · exact .errsAndCompletes rfl h
  · exact .errs _ (.inr rfl) (all_legal_erred s.te) h

/-- Every turn but the interpreter's answers a next state, and that state is one of `AgentStep`. -/
theorem takeTurn_cases (turn : Turn) (hturn : turn ≠ .dispatch) (s : State) :
    ∃ t, takeTurn turn s = .next t ∧ AgentStep turn s t := by
  cases turn with
  | dispatch => exact absurd rfl hturn
  | submit p c => exact ⟨_, rfl, submit_agentStep p c s⟩
  | poll => exact ⟨_, rfl, .tells _ rfl⟩
  | hostWrite a b => exact ⟨_, rfl, .writes a b rfl rfl⟩
  | teTake k => exact ⟨_, rfl, teTake_agentStep k s⟩
  | teSend alt => exact ⟨_, rfl, teSend_agentStep alt s⟩
  | teReceive rx => exact ⟨_, rfl, teReceive_agentStep rx s⟩
  | teStore k => exact ⟨_, rfl, teStore_agentStep k s⟩
  | teDone => exact ⟨_, rfl, teDone_agentStep s⟩
  | teErr => exact ⟨_, rfl, teErr_agentStep s⟩
  | teErrDone => exact ⟨_, rfl, teErrDone_agentStep s⟩
  | strayDone => exact ⟨_, rfl, .completes s.te (.inr rfl) id rfl⟩
  | reset => exact ⟨_, rfl, .resets rfl rfl⟩
  | teReset => exact ⟨_, rfl, .works none s.trace (fun _ => rfl) rfl⟩

/-- A step is one of the interpreter's or of another agent's, on the state with its turn used up. -/
theorem step_next {s t : State} (h : step s = .next t) :
    (∃ s0, InterpreterNext s s0 ∧ InterpreterStep s0 t) ∨ ∃ turn s0, TurnNext turn s s0 ∧ AgentStep turn s0 t := by
  rcases step_cases s with ⟨s0, hnext, hs⟩ | ⟨turn, s0, hne, hnext, hs⟩
  · exact .inl ⟨s0, hnext, interpreterTurn_next (hs ▸ h)⟩
  · obtain ⟨u, hu, hstep⟩ := takeTurn_cases turn hne s0
    have ht : t = u := Host.Outcome.next.inj (h.symm.trans (hs.trans hu))
    exact .inr ⟨turn, s0, hnext, ht ▸ hstep⟩

/-- The state in which a turn is taken differs from the one before the step only in its schedule. -/
theorem turnNext_fields {turn : Turn} {s s0 : State} (h : TurnNext turn s s0) : ∃ r, s0 = { s with sched := r } := by
  obtain ⟨rest, -, rfl⟩ := h
  exact ⟨rest, rfl⟩

/-- The state in which the interpreter runs a handler is about to decode the handler's instruction. -/
theorem decoding_of_handles {s s0 : State} {i : Instr} (hnext : InterpreterNext s s0) (hrun : s0.phase = .run)
    (hrem : 0 < s0.rem.toInt) (hpos : s0.pos ≠ 0#32) (hfetch : fetched s0 = .ok i) :
    Decoding s s0 ∧ decode (bytesAt s.mem s.pos) = .ok (i, []) := by
  have hdec := (fetched_iff s0 i).1 hfetch
  obtain ⟨r, rfl⟩ := interpreterNext_fields hnext
  exact ⟨⟨hnext, hrun, hrem, hpos⟩, hdec⟩

end Sys2Proof.Machine
end

section
/-! The invariant of the block and the Transfer Engine (R18, R19, R22, R161, R162), in each phase and after each
operation. -/

namespace Sys2Proof.Machine

/-- The invariant in phase IDLE. -/
theorem inv_iff_of_idle {s : State} (h : s.phase = .idle) :
    Inv s ↔ s.mem.wf = true ∧ s.status = .idle ∧ s.inflight = none ∧ (s.errKind ≠ .none ↔ s.result = .error) ∧
      s.te.all Job.legal = true := by
  have hst : (¬ s.status = .busy) ↔ s.status = .idle := by cases s.status <;> simp
  simp only [Inv, h, ne_eq, not_true, iff_false, hst, reduceCtorEq, Bool.not_eq_true, Option.isSome_eq_false_iff,
    Option.isNone_iff_eq_none, false_implies, true_and]
  constructor
  · rintro ⟨hm, hs, hf, he, -, ht⟩
    exact ⟨hm, hs, hf, he, ht⟩
  · rintro ⟨hm, hs, hf, he, ht⟩
    exact ⟨hm, hs, hf, he, by simp [hf], ht⟩

/-- The invariant in phase RUN. -/
theorem inv_iff_of_run {s : State} (h : s.phase = .run) :
    Inv s ↔ s.mem.wf = true ∧ s.status = .busy ∧ s.inflight = none ∧ s.result = .none ∧ s.errKind = .none ∧
      s.te.all Job.legal = true := by
  simp only [Inv, h, ne_eq, reduceCtorEq, not_false_eq_true, iff_true, iff_false, Bool.not_eq_true,
    Option.isSome_eq_false_iff, Option.isNone_iff_eq_none, true_implies]
  constructor
  · rintro ⟨hm, hs, hf, hr, he, -, ht⟩
    exact ⟨hm, hs, hf, hr, by simpa [hr] using he, ht⟩
  · rintro ⟨hm, hs, hf, hr, he, ht⟩
    exact ⟨hm, hs, hf, hr, by simp [hr, he], by simp [hf], ht⟩

/-- The invariant depends on memory, the job and the block's control fields alone. -/
theorem inv_update {s t : State} (h : Inv s) (hmem : t.mem.wf = true) (hte : t.te.all Job.legal = true)
    (hstatus : t.status = s.status) (hphase : t.phase = s.phase) (hresult : t.result = s.result)
    (herrKind : t.errKind = s.errKind) (hinflight : t.inflight = s.inflight) : Inv t := by
  obtain ⟨-, hst, hfl, hres, herr, hleg, -⟩ := h
  exact ⟨hmem, by rw [hstatus, hphase]; exact hst, by rw [hinflight, hphase]; exact hfl,
    by rw [hphase, hresult]; exact hres, by rw [herrKind, hresult]; exact herr, by rw [hinflight]; exact hleg, hte⟩

/-- The end of a program with no transfer in flight keeps the invariant when it gives an error kind exactly with the
outcome error (R19, R176). -/
theorem inv_terminate {s : State} {o : Result} {k : ErrKind} (hmem : s.mem.wf = true) (hinflight : s.inflight = none)
    (hte : s.te.all Job.legal = true) (hk : k ≠ .none ↔ o = .error) : Inv (terminate o k s) :=
  (inv_iff_of_idle rfl).2 ⟨hmem, rfl, hinflight, hk, hte⟩

/-- The start of a legal transfer by a running program keeps the invariant (R22, R77, R160). -/
theorem inv_start {s : State} {src dst : Endpoint} {n : Half} (h : Inv s) (hrun : s.phase = .run)
    (hl : Transfer.legal ⟨src, dst, n⟩ = true) : Inv (pending (startTransfer src dst n s)) := by
  obtain ⟨hmem, hst, -, hres, herr, -⟩ := (inv_iff_of_run hrun).1 h
  exact ⟨hmem, by simp [hst], by simp, by simp [hres], by simp [hres, herr], hl, Job.legal_new hl⟩

theorem inv_takeJump {s : State} (dist : Half) (h : Inv s) (hrun : s.phase = .run) : Inv (takeJump dist s) := by
  obtain ⟨hmem, -, hfl, -, -, hte⟩ := (inv_iff_of_run hrun).1 h
  rcases takeJump_cases dist s with ⟨-, ht⟩ | ⟨-, ht⟩ | ⟨-, -, ht⟩
  · exact ht ▸ inv_terminate hmem hfl hte (by simp)
  · exact ht ▸ inv_terminate hmem hfl hte (by simp)
  · exact ht ▸ inv_update h hmem hte rfl rfl rfl rfl rfl

/-- The completion gate: the transfer leaves `INFLIGHT` as the wait ends (R181). -/
theorem inv_takeDone {s : State} (h : Inv s) : Inv (takeDone s) := by
  rcases takeDone_cases s with ⟨hwait, -, ht⟩ | ⟨-, -, ht⟩ | ⟨-, ht⟩ <;> rw [ht]
  · obtain ⟨hmem, hst, -, hres, herr, -, hte⟩ := h
    have hbusy : s.phase ≠ .idle := by simp [hwait]
    have hnone : s.result = .none := hres hbusy
    exact (inv_iff_of_run rfl).2 ⟨hmem, hst.2 hbusy, rfl, hnone, by simpa [hnone] using herr, hte⟩
  · obtain ⟨hmem, -, -, -, -, -, hte⟩ := h
    exact inv_terminate hmem rfl hte (by simp)
  · exact h

theorem inv_putEndpointByte {s : State} (e : Endpoint) (k : Nat) (b : Byte) (h : Inv s) :
    Inv (putEndpointByte e k b s) := by
  obtain ⟨hmem, -, -, -, -, -, hte⟩ := id h
  rcases putEndpointByte_cases e k b s with ⟨-, ht⟩ | ⟨a, -, ht⟩ | ⟨i, -, ht⟩ <;> rw [ht]
  · exact h
  · exact inv_update h (Memory.wf_write hmem _ _) hte rfl rfl rfl rfl rfl
  · exact inv_update h (by simpa using hmem) (by simpa using hte) (by simp) (by simp) (by simp) (by simp) (by simp)

/-- An accepted `SUBMIT` finds no transfer in flight, because the block is idle (R18, R151). -/
theorem inv_acceptSubmit {s : State} (p : Address) (c : Half) (h : Inv s) (hidle : s.status = .idle) :
    Inv (emit .submitOk (acceptSubmit p c s)) := by
  have hphase : s.phase = .idle := by
    obtain ⟨-, hst, -⟩ := h
    by_contra hne
    exact absurd (hidle.symm.trans (hst.2 hne)) (by simp)
  obtain ⟨hmem, -, hfl, -, hte⟩ := (inv_iff_of_idle hphase).1 h
  exact (inv_iff_of_run rfl).2 ⟨hmem, rfl, hfl, rfl, rfl, hte⟩

theorem inv_blockReset {s : State} (h : Inv s) : Inv (blockReset s) := by
  obtain ⟨hmem, -, -, -, -, -, hte⟩ := h
  exact (inv_iff_of_idle rfl).2 ⟨hmem, rfl, rfl, by simp [blockReset, State.reset], hte⟩

/-- Every handler, run from phase RUN, keeps the invariant. -/
theorem handlerStep_inv {i : Instr} {s t : State} (hs : Inv s) (hrun : s.phase = .run) (h : HandlerStep i s t) :
    Inv t := by
  obtain ⟨hmem, -, hfl, -, -, hte⟩ := (inv_iff_of_run hrun).1 hs
  have hwr : ∀ reg v, Inv (wr reg v s) := fun reg v =>
    inv_update hs (by simpa using hmem) (by simpa using hte) (by simp) (by simp) (by simp) (by simp) (by simp)
  have hadvance : ∀ {u}, Inv u → Inv (advance u) := fun hu => hu
  cases h with
  | register reg v _ h => exact h ▸ hadvance (hwr reg v)
  | goOn h => exact h ▸ hs
  | toggle _ _ _ _ h => exact h ▸ hs
  | store m hm h => exact h ▸ inv_update hs (hm hmem) hte rfl rfl rfl rfl rfl
  | start _ _ _ hl h => exact h ▸ inv_start hs hrun hl
  | toggleStart _ _ _ _ _ _ _ _ hl h => exact h ▸ inv_start (s := toggleSelect s) hs hrun hl
  | clearStart reg _ _ _ _ hl h => exact h ▸ inv_start (hwr reg 0#32) (by simpa using hrun) hl
  | branch _ _ _ h => exact h ▸ hs
  | jump h => exact h ▸ inv_takeJump _ hs hrun
  | badRegister h => exact h ▸ inv_terminate hmem hfl hte (by simp)

theorem interpreterStep_inv {s t : State} (hs : Inv s) (h : InterpreterStep s t) : Inv t := by
  cases h with
  | passes _ h => exact h ▸ hs
  | returns _ h => exact h ▸ hs
  | ends o k hrun hk h =>
    obtain ⟨hmem, -, hfl, -, -, hte⟩ := (inv_iff_of_run hrun).1 hs
    exact h ▸ inv_terminate hmem hfl hte hk
  | handles i hrun _ _ _ h => exact handlerStep_inv (s := countDown s) hs hrun h

theorem agentStep_inv {turn : Turn} {s t : State} (hs : Inv s) (h : AgentStep turn s t) : Inv t := by
  obtain ⟨hmem, -, -, -, -, -, hte⟩ := id hs
  have hjob : ∀ {te : Option Job}, te.all Job.legal = true → Inv { s with te := te } := fun hj =>
    inv_update hs hmem hj rfl rfl rfl rfl rfl
  cases h with
  | tells _ h => exact h ▸ hs
  | submits p c _ hidle h => exact h ▸ inv_acceptSubmit p c hs hidle
  | writes a b _ h => exact h ▸ inv_update hs (Memory.wf_write hmem a b) hte rfl rfl rfl rfl rfl
  | works _ _ hj h => exact h ▸ hjob (hj hte)
  | stores _ _ _ _ _ _ hj h => exact h ▸ inv_putEndpointByte _ _ _ (hjob (hj hte))
  | completes _ _ hj h => exact h ▸ inv_takeDone (hjob (hj hte))
  | errs _ _ hj h => exact h ▸ hjob (hj hte)
  | errsAndCompletes _ h => exact h ▸ inv_takeDone (s := takeErr { s with te := none }) (hjob rfl)
  | resets _ h => exact h ▸ inv_blockReset hs

/-- Settles O51: by the inversion of the step, the interpreter's turn and every other agent's keep the invariant. -/
theorem everyStepKeepsTheInvariant : Obligations.EveryStepKeepsTheInvariant := by
  unfold Obligations.EveryStepKeepsTheInvariant
  intro s t hs hstep
  rcases step_next hstep with ⟨s0, hnext, h⟩ | ⟨turn, s0, hnext, h⟩
  · obtain ⟨r, rfl⟩ := interpreterNext_fields hnext
    exact interpreterStep_inv (s := { s with sched := r }) hs h
  · obtain ⟨r, rfl⟩ := turnNext_fields hnext
    exact agentStep_inv (s := { s with sched := r }) hs h

/-- Settles O52: the reset state is idle, with nothing in flight, no outcome and no job. -/
theorem resetStateMeetsTheInvariant : Obligations.ResetStateMeetsTheInvariant := by
  unfold Obligations.ResetStateMeetsTheInvariant
  exact (inv_iff_of_idle rfl).2 ⟨Memory.wf_nil, rfl, rfl, by decide, rfl⟩

end Sys2Proof.Machine
end

section
/-! Which step can change a field of the block: the select line, the error counter, the slots, STATUS. -/

namespace Sys2Proof.Machine

/-- The one place where a step's change of a field can come from: a handler on the counted-down state, or another
agent's turn. The field is one that the schedule, a return, an end of the program and the count do not touch. -/
theorem step_changes {α : Type} (f : State → α) (hsched : ∀ (s : State) r, f { s with sched := r } = f s)
    (hreturn : ∀ s, f (returnToCaller s) = f s) (hend : ∀ o k s, f (terminate o k s) = f s)
    (hcount : ∀ s, f (countDown s) = f s) {s t : State} (h : step s = .next t) (hne : f t ≠ f s) :
    (∃ s0 i, Decoding s s0 ∧ decode (bytesAt s.mem s.pos) = .ok (i, []) ∧ HandlerStep i (countDown s0) t ∧
      f t ≠ f (countDown s0)) ∨
    ∃ turn s0, TurnNext turn s s0 ∧ AgentStep turn s0 t ∧ f t ≠ f s0 := by
  rcases step_next h with ⟨s0, hnext, hstep⟩ | ⟨turn, s0, hnext, hstep⟩
  · obtain ⟨r, hr⟩ := interpreterNext_fields hnext
    have hne0 : f t ≠ f s0 := by rwa [hr, hsched s r]
    cases hstep with
    | passes _ ht => exact absurd (congrArg f ht) hne0
    | returns _ ht => exact absurd (by rw [ht, hreturn]) hne0
    | ends _ _ _ _ ht => exact absurd (by rw [ht, hend]) hne0
    | handles i hrun hrem hpos hfetch hh =>
      obtain ⟨hdec, hi⟩ := decoding_of_handles hnext hrun hrem hpos hfetch
      exact .inl ⟨s0, i, hdec, hi, hh, by rwa [hcount]⟩
  · obtain ⟨r, hr⟩ := turnNext_fields hnext
    exact .inr ⟨turn, s0, hnext, hstep, by rwa [hr, hsched s r]⟩

/-! ### The select line -/

/-- Of all handlers only that of `XFERS` moves the select line (R92). -/
theorem handlerStep_sel {i : Instr} {s t : State} (h : HandlerStep i s t) (hne : t.sel ≠ s.sel) :
    ∃ reg len src dst, i = .xfers reg len src dst := by
  cases h with
  | toggle reg src dst hi _ => exact ⟨reg, _, src, dst, hi⟩
  | toggleStart reg len a b hi _ _ _ _ _ => exact ⟨reg, len, a, b, hi⟩
  | register _ _ _ ht => simp [ht] at hne
  | goOn ht => simp [ht] at hne
  | store _ _ ht => simp [ht] at hne
  | start _ _ _ _ ht => simp [ht] at hne
  | clearStart _ _ _ _ _ _ ht => simp [ht] at hne
  | branch _ _ _ ht => simp [ht] at hne
  | jump ht => exact absurd (ht ▸ takeJump_keeps State.sel (fun _ _ _ => rfl) (fun _ _ _ => rfl) _ _) hne
  | badRegister ht => simp [ht] at hne

/-- No other agent's turn but reset moves the select line (R168). -/
theorem agentStep_sel {turn : Turn} {s t : State} (h : AgentStep turn s t) (hne : t.sel ≠ s.sel) : turn = .reset := by
  have hdone : ∀ u, (takeDone u).sel = u.sel := takeDone_keeps State.sel (fun _ _ _ => rfl) (fun _ _ _ => rfl)
  have hput : ∀ e k b u, (putEndpointByte e k b u).sel = u.sel :=
    putEndpointByte_keeps State.sel (fun _ _ => rfl) setSlot_sel
  cases h with
  | resets hturn _ => exact hturn
  | tells _ ht => simp [ht] at hne
  | submits _ _ _ _ ht => simp [ht] at hne
  | writes _ _ _ ht => simp [ht, hostWrite] at hne
  | works _ _ _ ht => simp [ht] at hne
  | stores _ _ _ _ _ _ _ ht => simp [ht, hput] at hne
  | completes _ _ _ ht => simp [ht, hdone] at hne
  | errs _ _ _ ht => simp [ht] at hne
  | errsAndCompletes _ ht => simp [ht, hdone] at hne

/-- Settles O55: of the handlers only `XFERS` moves the line, of the other turns only reset. -/
theorem onlyTransferWithToggleMovesTheSelectLine : Obligations.OnlyTransferWithToggleMovesTheSelectLine := by
  unfold Obligations.OnlyTransferWithToggleMovesTheSelectLine
  intro s t hstep hne
  rcases step_changes State.sel (fun _ _ => rfl) returnToCaller_sel terminate_sel countDown_sel hstep hne with
    ⟨s0, i, hdec, hi, hh, hne0⟩ | ⟨turn, s0, hnext, ha, hne0⟩
  · obtain ⟨reg, len, src, dst, rfl⟩ := handlerStep_sel hh hne0
    exact .inl ⟨s0, reg, len, src, dst, hdec, hi⟩
  · obtain rfl := agentStep_sel ha hne0
    exact .inr ⟨s0, hnext⟩

/-! ### The error counter -/

/-- No handler touches the error counter. -/
theorem handlerStep_errCnt {i : Instr} {s t : State} (h : HandlerStep i s t) : t.errCnt = s.errCnt := by
  cases h with
  | register _ _ _ ht => simp [ht]
  | goOn ht => simp [ht]
  | toggle _ _ _ _ ht => simp [ht]
  | store _ _ ht => simp [ht]
  | start _ _ _ _ ht => simp [ht]
  | toggleStart _ _ _ _ _ _ _ _ _ ht => simp [ht]
  | clearStart _ _ _ _ _ _ ht => simp [ht]
  | branch _ _ _ ht => simp [ht]
  | jump ht => exact ht ▸ takeJump_keeps State.errCnt (fun _ _ _ => rfl) (fun _ _ _ => rfl) _ _
  | badRegister ht => simp [ht]

/-- An error event, alone or with a completion, adds one to the counter; no other turn but reset touches it (R180). -/
theorem agentStep_errCnt {turn : Turn} {s t : State} (h : AgentStep turn s t) (hne : t.errCnt ≠ s.errCnt) :
    (t.errCnt = s.errCnt + 1#32 ∧ (turn = .teErr ∨ turn = .teErrDone)) ∨ turn = .reset := by
  have hdone : ∀ u, (takeDone u).errCnt = u.errCnt :=
    takeDone_keeps State.errCnt (fun _ _ _ => rfl) (fun _ _ _ => rfl)
  have hput : ∀ e k b u, (putEndpointByte e k b u).errCnt = u.errCnt :=
    putEndpointByte_keeps State.errCnt (fun _ _ => rfl) setSlot_errCnt
  cases h with
  | errs _ hturn _ ht => exact .inl ⟨by rw [ht]; rfl, hturn⟩
  | errsAndCompletes hturn ht => exact .inl ⟨by rw [ht, hdone]; rfl, .inr hturn⟩
  | resets hturn _ => exact .inr hturn
  | tells _ ht => simp [ht] at hne
  | submits _ _ _ _ ht => simp [ht] at hne
  | writes _ _ _ ht => simp [ht, hostWrite] at hne
  | works _ _ _ ht => simp [ht] at hne
  | stores _ _ _ _ _ _ _ ht => simp [ht, hput] at hne
  | completes _ _ _ ht => simp [ht, hdone] at hne

/-- Settles O56: no handler touches the counter, and of the other turns only an error event and reset do. -/
theorem onlyErrorEventsMoveTheErrorCounter : Obligations.OnlyErrorEventsMoveTheErrorCounter := by
  unfold Obligations.OnlyErrorEventsMoveTheErrorCounter
  intro s t hstep hne
  rcases step_changes State.errCnt (fun _ _ => rfl) returnToCaller_errCnt terminate_errCnt countDown_errCnt hstep hne
    with ⟨s0, i, -, -, hh, hne0⟩ | ⟨turn, s0, hnext, ha, hne0⟩
  · exact absurd (handlerStep_errCnt hh) hne0
  · obtain ⟨r, hr⟩ := turnNext_fields hnext
    have herr : s0.errCnt = s.errCnt := by rw [hr]
    rcases agentStep_errCnt ha hne0 with ⟨hcount, rfl | rfl⟩ | rfl
    · exact .inl ⟨herr ▸ hcount, s0, .inl hnext⟩
    · exact .inl ⟨herr ▸ hcount, s0, .inr hnext⟩
    · exact .inr ⟨s0, hnext⟩

/-! ### The slots -/

/-- A handler that changes a slot is one that R12 lets write, and its `reg` field names that slot. -/
theorem handlerStep_slot {i : Instr} {s t : State} {r : Slot} (h : HandlerStep i s t) (hne : t.slot r ≠ s.slot r) :
    writesRegister i (.slot r) := by
  cases h with
  | register reg v hi ht =>
    by_cases hreg : reg = .slot r
    · exact hreg ▸ hi
    · exact absurd (ht ▸ slot_wr_of_ne hreg v s) hne
  | clearStart reg _ _ _ hi _ ht =>
    by_cases hreg : reg = .slot r
    · exact hreg ▸ hi
    · exact absurd (ht ▸ slot_wr_of_ne hreg 0#32 s) hne
  | goOn ht => exact absurd (ht ▸ rfl) hne
  | toggle _ _ _ _ ht => exact absurd (ht ▸ rfl) hne
  | store _ _ ht => exact absurd (ht ▸ rfl) hne
  | start _ _ _ _ ht => exact absurd (ht ▸ rfl) hne
  | toggleStart _ _ _ _ _ _ _ _ _ ht => exact absurd (ht ▸ rfl) hne
  | branch _ _ _ ht => exact absurd (ht ▸ rfl) hne
  | jump ht => exact absurd (ht ▸ takeJump_keeps (State.slot · r) (fun _ _ _ => rfl) (fun _ _ _ => rfl) _ _) hne
  | badRegister ht => exact absurd (ht ▸ rfl) hne

/-- The code of a slot, decoded, is that slot, so the `reg` field of a writing instruction names it (R53). -/
theorem ofCode_reg_of_writesRegister {i : Instr} {r : Slot} (h : writesRegister i (.slot r)) :
    RegId.ofCode (encodeRecord i).reg = .slot r := by
  rw [h.2]
  exact RegId.ofCode_toCode _ rfl

/-- A received byte changes only the slot that is its endpoint (R161). -/
theorem putEndpointByte_slot {e : Endpoint} {k : Nat} {b : Byte} {s : State} {r : Slot}
    (hne : (putEndpointByte e k b s).slot r ≠ s.slot r) : e = .reg r := by
  rcases putEndpointByte_cases e k b s with ⟨-, h⟩ | ⟨a, -, h⟩ | ⟨i, he, h⟩ <;> rw [h] at hne
  · exact absurd rfl hne
  · exact absurd rfl hne
  · by_cases hri : r = i
    · rw [he, hri]
    · exact absurd (by rw [slot_setSlot, if_neg hri]) hne

/-- Another agent's turn that changes a slot stores a received byte into it, or is reset. -/
theorem agentStep_slot {turn : Turn} {s t : State} {r : Slot} (h : AgentStep turn s t)
    (hne : t.slot r ≠ s.slot r) :
    (∃ k j, turn = .teStore k ∧ s.te = some j ∧ j.req.dst = .reg r) ∨ turn = .reset := by
  have hdone : ∀ u, (takeDone u).slot r = u.slot r :=
    takeDone_keeps (State.slot · r) (fun _ _ _ => rfl) (fun _ _ _ => rfl)
  cases h with
  | stores k j _ _ hturn hte _ ht => exact .inl ⟨k, j, hturn, hte, putEndpointByte_slot (ht ▸ hne)⟩
  | resets hturn _ => exact .inr hturn
  | tells _ ht => exact absurd (ht ▸ rfl) hne
  | submits _ _ _ _ ht => exact absurd (ht ▸ rfl) hne
  | writes _ _ _ ht => exact absurd (ht ▸ rfl) hne
  | works _ _ _ ht => exact absurd (ht ▸ rfl) hne
  | completes _ _ _ ht => exact absurd (ht ▸ hdone _) hne
  | errs _ _ _ ht => exact absurd (ht ▸ rfl) hne
  | errsAndCompletes _ ht => exact absurd (ht ▸ hdone _) hne

/-- Settles O58: by the inversion of the step, with one lemma for the handlers and one for the other turns. -/
theorem onlyHandlersAndReceivesWriteRegisters : Obligations.OnlyHandlersAndReceivesWriteRegisters := by
  unfold Obligations.OnlyHandlersAndReceivesWriteRegisters
  intro s t r hstep hne
  rw [regValue_slot, regValue_slot] at hne
  rcases step_changes (State.slot · r) (fun _ _ => rfl) (fun _ => rfl) (fun _ _ _ => rfl) (fun _ => rfl) hstep hne with
    ⟨s0, i, hdec, hi, hh, hne0⟩ | ⟨turn, s0, hnext, ha, hne0⟩
  · have hwrites := handlerStep_slot hh hne0
    exact .inl ⟨s0, i, hdec, hi, hwrites.1, ofCode_reg_of_writesRegister hwrites⟩
  · obtain ⟨q, hq⟩ := turnNext_fields hnext
    have hte0 : s0.te = s.te := by rw [hq]
    rcases agentStep_slot ha hne0 with ⟨k, j, rfl, hte, hdst⟩ | rfl
    · exact .inr (.inl ⟨s0, k, j, hnext, hte0 ▸ hte, hdst⟩)
    · exact .inr (.inr ⟨s0, hnext⟩)

/-! ### STATUS -/

/-- The program of `s` is over in `t`: the block is idle, and exactly the terminal event that carries the outcome `t`
holds was raised (R155). -/
def ProgramEnds (s t : State) : Prop :=
  t.status = .idle ∧ t.trace = .terminal t.result t.errKind :: s.trace

theorem programEnds_terminate (o : Result) (k : ErrKind) (s : State) : ProgramEnds s (terminate o k s) := ⟨rfl, rfl⟩

/-- A handler leaves STATUS as it is, or ends the program. -/
theorem handlerStep_status {i : Instr} {s t : State} (h : HandlerStep i s t) :
    t.status = s.status ∨ ProgramEnds s t := by
  cases h with
  | register _ _ _ ht => exact .inl (by simp [ht])
  | goOn ht => exact .inl (by simp [ht])
  | toggle _ _ _ _ ht => exact .inl (by simp [ht])
  | store _ _ ht => exact .inl (by simp [ht])
  | start _ _ _ _ ht => exact .inl (by simp [ht])
  | toggleStart _ _ _ _ _ _ _ _ _ ht => exact .inl (by simp [ht])
  | clearStart _ _ _ _ _ _ ht => exact .inl (by simp [ht])
  | branch _ _ _ ht => exact .inl (by simp [ht])
  | jump ht =>
    rcases takeJump_cases (distance i) s with ⟨-, hj⟩ | ⟨-, hj⟩ | ⟨-, -, hj⟩
    · exact .inr (ht ▸ hj ▸ programEnds_terminate _ _ s)
    · exact .inr (ht ▸ hj ▸ programEnds_terminate _ _ s)
    · exact .inl (by rw [ht, hj])
  | badRegister ht => exact .inr (ht ▸ programEnds_terminate _ _ s)

/-- The interpreter's turn leaves STATUS as it is, or ends the program. -/
theorem interpreterStep_status {s t : State} (h : InterpreterStep s t) : t.status = s.status ∨ ProgramEnds s t := by
  cases h with
  | passes _ ht => exact .inl (by rw [ht])
  | returns _ ht => exact .inl (by simp [ht])
  | ends o k _ _ ht => exact .inr (ht ▸ programEnds_terminate o k s)
  | handles i _ _ _ _ hh => exact handlerStep_status (s := countDown s) hh

/-- The completion gate leaves STATUS as it is, or ends the program (R181). -/
theorem takeDone_status (s : State) : (takeDone s).status = s.status ∨ ProgramEnds s (takeDone s) := by
  rcases takeDone_cases s with ⟨-, -, h⟩ | ⟨-, -, h⟩ | ⟨-, h⟩ <;> rw [h]
  · exact .inl rfl
  · exact .inr (programEnds_terminate _ _ _)
  · exact .inl rfl

/-- Another agent's turn leaves STATUS as it is, ends the program, accepts a program, or is reset. -/
theorem agentStep_status {turn : Turn} {s t : State} (h : AgentStep turn s t) :
    t.status = s.status ∨ ProgramEnds s t ∨
    (∃ p c, turn = .submit p c ∧ s.status = .idle ∧ t.status = .busy) ∨ (turn = .reset ∧ t.status = .idle) := by
  cases h with
  | submits p c hturn hidle ht => exact .inr (.inr (.inl ⟨p, c, hturn, hidle, by simp [ht]⟩))
  | resets hturn ht => exact .inr (.inr (.inr ⟨hturn, by rw [ht]; rfl⟩))
  | completes te _ _ ht => exact (ht ▸ takeDone_status { s with te := te }).imp_right .inl
  | errsAndCompletes _ ht => exact (ht ▸ takeDone_status (takeErr { s with te := none })).imp_right .inl
  | tells _ ht => exact .inl (by simp [ht])
  | writes _ _ _ ht => exact .inl (by rw [ht]; rfl)
  | works _ _ _ ht => exact .inl (by rw [ht])
  | stores _ _ _ _ _ _ _ ht =>
    exact .inl (ht ▸ putEndpointByte_keeps State.status (fun _ _ => rfl) setSlot_status _ _ _ _)
  | errs _ _ _ ht => exact .inl (by simp [ht])

/-- Settles O57: every turn keeps STATUS, ends the program, accepts a program, or is reset. -/
theorem statusMovesOnlyBySubmitAndTermination : Obligations.StatusMovesOnlyBySubmitAndTermination := by
  unfold Obligations.StatusMovesOnlyBySubmitAndTermination
  intro s t hstep
  have hcases : t.status = s.status ∨ ProgramEnds s t ∨
      (∃ p c s0, TurnNext (.submit p c) s s0 ∧ s.status = .idle ∧ t.status = .busy) ∨
      ((∃ s0, TurnNext .reset s s0) ∧ t.status = .idle) := by
    rcases step_next hstep with ⟨s0, hnext, h⟩ | ⟨turn, s0, hnext, h⟩
    · obtain ⟨r, rfl⟩ := interpreterNext_fields hnext
      exact (interpreterStep_status h).imp_right .inl
    · obtain ⟨r, hr⟩ := turnNext_fields hnext
      rcases agentStep_status h with hkeep | hends | ⟨p, c, rfl, hidle, hbusy⟩ | ⟨rfl, hidle⟩
      · exact .inl (by rw [hkeep, hr])
      · exact .inr (.inl (by rw [hr] at hends; exact hends))
      · exact .inr (.inr (.inl ⟨p, c, s0, hnext, by rw [hr] at hidle; exact hidle, hbusy⟩))
      · exact .inr (.inr (.inr ⟨⟨s0, hnext⟩, hidle⟩))
  rcases hcases with hkeep | ⟨hidle, htrace⟩ | ⟨p, c, s0, hnext, hidle, hbusy⟩ | ⟨hreset, hidle⟩
  · exact ⟨fun hs ht => by simp [hkeep, hs] at ht, fun hs ht => by simp [hkeep, hs] at ht⟩
  · exact ⟨fun _ ht => by simp [hidle] at ht, fun _ _ => .inl htrace⟩
  · exact ⟨fun _ _ => ⟨p, c, s0, hnext⟩, fun hs _ => by simp [hidle] at hs⟩
  · exact ⟨fun _ ht => by simp [hidle] at ht, fun _ _ => .inr hreset⟩

end Sys2Proof.Machine
end

section
/-! The end of the array, `POS + 12 * REM`, under a handler (R15, R138). -/

namespace Sys2Proof.Machine

/-- Sign extension commutes with a difference that fits 16 signed bits. -/
theorem signExtend_sub_of_fits (a d : Half) (hlo : -32768 ≤ a.toInt - d.toInt) (hhi : a.toInt - d.toInt ≤ 32767) :
    (a - d).signExtend 32 = a.signExtend 32 - d.signExtend 32 := by
  apply BitVec.eq_of_toInt_eq
  have ha := BitVec.toInt_lt (x := a)
  have ha' := BitVec.le_toInt a
  have hd := BitVec.toInt_lt (x := d)
  have hd' := BitVec.le_toInt d
  rw [BitVec.toInt_sub, BitVec.toInt_signExtend_of_le (by omega), BitVec.toInt_signExtend_of_le (by omega),
    BitVec.toInt_signExtend_of_le (by omega), BitVec.toInt_sub]
  rw [Int.bmod_eq_of_le (by omega) (by omega), Int.bmod_eq_of_le (by omega) (by omega)]

/-- A move by `d` records with the count lowered by `d` keeps the end of the array while the count does not wrap. -/
theorem endOfArray_move (p : Address) (a d : Half) (hlo : -32768 ≤ a.toInt - d.toInt) (hhi : a.toInt - d.toInt ≤ 32767) :
    p + 12#32 * d.signExtend 32 + 12#32 * (a - d).signExtend 32 = p + 12#32 * a.signExtend 32 := by
  rw [signExtend_sub_of_fits a d hlo hhi]
  ring

/-- A handler of no branch kind that does not end the program moves by one record, or by the jump's distance with the
count corrected (R76, R77, R138). -/
theorem handlerStep_moves {i : Instr} {s t : State} (h : HandlerStep i s t) (hbranch : isBranch i = false)
    (hphase : t.phase ≠ .idle) :
    (t.pos = s.pos + 12#32 ∧ t.rem = s.rem) ∨
    (t.pos = s.pos + 12#32 * (distance i).signExtend 32 ∧ t.rem = s.rem - (distance i - 1#16)) := by
  cases h with
  | register _ _ _ ht => exact .inl (by simp [ht, Config.instrBytes])
  | goOn ht => exact .inl (by simp [ht, Config.instrBytes])
  | toggle _ _ _ _ ht => exact .inl (by simp [ht, Config.instrBytes])
  | store _ _ ht => exact .inl (by simp [ht, Config.instrBytes])
  | start _ _ _ _ ht => exact .inl (by simp [ht, Config.instrBytes])
  | toggleStart _ _ _ _ _ _ _ _ _ ht => exact .inl (by simp [ht, Config.instrBytes])
  | clearStart _ _ _ _ _ _ ht => exact .inl (by simp [ht, Config.instrBytes])
  | branch _ _ hi _ => simp [hbranch] at hi
  | jump ht =>
    rcases takeJump_cases (distance i) s with ⟨-, hj⟩ | ⟨-, hj⟩ | ⟨-, -, hj⟩
    · exact absurd (by rw [ht, hj]; rfl) hphase
    · exact absurd (by rw [ht, hj]; rfl) hphase
    · exact .inr (by rw [ht, hj]; exact ⟨rfl, rfl⟩)
  | badRegister ht => exact absurd (by rw [ht]; rfl) hphase

/-- With a program running, a count remaining and a position, the interpreter runs the handler of what it fetches
(R72). -/
theorem interpreterTurn_of_fetched {s : State} {i : Instr} (hrun : s.phase = .run) (hrem : 0 < s.rem.toInt)
    (hpos : s.pos ≠ 0#32) (hfetch : fetched s = .ok i) : interpreterTurn s = exec i (countDown s) := by
  have hnot : exhausted s = false := by simpa [exhausted] using hrem
  simp [interpreterTurn, hrun, dispatchStep, hnot, Config.null, hpos, hfetch]

/-- A decoding step is the handler of the decoded instruction, on the counted-down state. -/
theorem step_of_decoding {s s0 : State} {i : Instr} (hdec : Decoding s s0)
    (hi : decode (bytesAt s.mem s.pos) = .ok (i, [])) : step s = exec i (countDown s0) := by
  obtain ⟨hnext, hrun, hrem, hpos⟩ := hdec
  rw [step_of_interpreterNext hnext]
  obtain ⟨r, rfl⟩ := interpreterNext_fields hnext
  exact interpreterTurn_of_fetched hrun hrem hpos ((fetched_iff _ i).2 hi)

/-- A decoding step that answers a state is one of the handler's. -/
theorem handlerStep_of_decoding {s s0 t : State} {i : Instr} (hdec : Decoding s s0)
    (hi : decode (bytesAt s.mem s.pos) = .ok (i, [])) (hstep : step s = .next t) :
    HandlerStep i (countDown s0) t := by
  obtain ⟨u, hu, hh⟩ := exec_cases i (countDown s0)
  rw [step_of_decoding hdec hi, hu] at hstep
  injection hstep with ht
  exact ht ▸ hh

/-- Settles O34: the position and the count move by the same number of records, 1 or the jump's distance. -/
theorem endOfArrayStaysPut : Obligations.EndOfArrayStaysPut := by
  unfold Obligations.EndOfArrayStaysPut
  intro s s0 t i hdec hi hbranch hlo hhi hstep hphase
  have hmoves := handlerStep_moves (handlerStep_of_decoding hdec hi hstep) hbranch hphase
  obtain ⟨hnext, -, hrem, -⟩ := hdec
  obtain ⟨r, rfl⟩ := interpreterNext_fields hnext
  simp only [countDown_pos, countDown_rem] at hmoves
  rcases hmoves with ⟨hpos, hcount⟩ | ⟨hpos, hcount⟩
  · have hone : (1#16 : Half).toInt = 1 := by decide
    have hlt := BitVec.toInt_lt (x := s.rem)
    rw [hpos, hcount]
    exact endOfArray_move s.pos s.rem 1#16 (by omega) (by omega)
  · have hsub : s.rem - 1#16 - (distance i - 1#16) = s.rem - distance i := by ring
    rw [hpos, hcount, hsub]
    exact endOfArray_move s.pos s.rem (distance i) hlo hhi

end Sys2Proof.Machine
end

section
/-! The host's turns and reset: what each leaves as it was. -/

namespace Sys2Proof.Machine

/-- A submit, accepted or rejected, keeps a field that neither its writes nor its answer touch. -/
theorem submit_keeps {α : Type} (f : State → α) (haccept : ∀ p c s, f (acceptSubmit p c s) = f s)
    (hemit : ∀ o s, f (emit o s) = f s) (p : Address) (c : Half) (s : State) : f (submit p c s) = f s := by
  rcases submit_cases p c s with ⟨-, h⟩ | ⟨-, h⟩
  · rw [h, hemit, haccept]
  · rw [h, hemit]

/-- Settles O38: a host turn's effect is its own operation's, and each field is kept by that operation. -/
theorem hostTurnsChangeOnlyWhatTheyName : Obligations.HostTurnsChangeOnlyWhatTheyName := by
  unfold Obligations.HostTurnsChangeOnlyWhatTheyName
  intro s s0 t turn hnext hstep
  rw [step_of_turnNext hnext] at hstep
  obtain ⟨r, rfl⟩ := turnNext_fields hnext
  refine ⟨?poll, ?write, ?submit⟩
  case poll =>
    rintro rfl
    injection hstep with ht
    exact ht.symm
  case write =>
    rintro a b rfl
    injection hstep with ht
    subst ht
    exact ⟨rfl, fun hwf x => Memory.read_write hwf a x b⟩
  case submit =>
    rintro p c rfl
    injection hstep with ht
    subst ht
    exact ⟨submit_keeps State.x0 acceptSubmit_x0 emit_x0 p c _, submit_keeps State.x1 acceptSubmit_x1 emit_x1 p c _,
      submit_keeps State.sel acceptSubmit_sel emit_sel p c _,
      submit_keeps State.errCnt acceptSubmit_errCnt emit_errCnt p c _,
      submit_keeps State.rsRem acceptSubmit_rsRem emit_rsRem p c _,
      submit_keeps State.rsPos acceptSubmit_rsPos emit_rsPos p c _,
      submit_keeps State.inflight acceptSubmit_inflight emit_inflight p c _,
      submit_keeps State.mem acceptSubmit_mem emit_mem p c _, submit_keeps State.te acceptSubmit_te emit_te p c _⟩

/-- Settles O39: the reset turn answers `blockReset`, whose fields are those of `State.reset`. -/
theorem resetGivesTheResetValues : Obligations.ResetGivesTheResetValues := by
  unfold Obligations.ResetGivesTheResetValues
  intro s s0 hnext
  have hstep : step s = .next (blockReset s0) := step_of_turnNext hnext
  obtain ⟨r, rfl⟩ := turnNext_fields hnext
  refine ⟨_, hstep, rfl, rfl, rfl, ?_⟩
  rintro u (rfl | rfl) <;>
    exact ⟨rfl, rfl, rfl, rfl, rfl, rfl, rfl, rfl, rfl, rfl, rfl, rfl, rfl, rfl, rfl⟩

end Sys2Proof.Machine
end

section
/-! Every step of every agent answers a next state (R39, R61, R175). -/

namespace Sys2Proof.Machine

/-- A dispatch step answers a next state: the four ends before a handler do, and so does every handler (R72). -/
theorem dispatchStep_answers (s : State) : ∃ t, dispatchStep s = .next t := by
  rcases dispatchStep_cases s with ⟨-, -, h⟩ | ⟨-, -, h⟩ | ⟨-, -, h⟩ | ⟨-, -, -, h⟩ | ⟨-, -, i, -, h⟩
  · exact ⟨_, h⟩
  · exact ⟨_, h⟩
  · exact ⟨_, h⟩
  · exact ⟨_, h⟩
  · obtain ⟨t, ht, -⟩ := exec_cases i (countDown s)
    exact ⟨t, h.trans ht⟩

theorem interpreterTurn_answers (s : State) : ∃ t, interpreterTurn s = .next t := by
  rcases interpreterTurn_cases s with ⟨-, h⟩ | ⟨-, h⟩
  · exact ⟨s, h⟩
  · rw [h]
    exact dispatchStep_answers s

/-- Settles O53: the interpreter's turn answers a next state, and so does the turn of every other agent. -/
theorem everyStepAnswersANextState : Obligations.EveryStepAnswersANextState := by
  unfold Obligations.EveryStepAnswersANextState
  intro s
  rcases step_cases s with ⟨s0, -, h⟩ | ⟨turn, s0, hturn, -, h⟩
  · rw [h]
    exact interpreterTurn_answers s0
  · obtain ⟨t, ht, -⟩ := takeTurn_cases turn hturn s0
    exact ⟨t, h.trans ht⟩

end Sys2Proof.Machine
end

section
/-! A word written to memory and read back from the same address (R33, R37). -/

namespace Sys2Proof.Machine

/-- A word reads back as it was written, at the top of the address space too (R33, R38). -/
theorem Memory.read32_write32 {m : Memory} (hm : m.wf = true) (a v : Word) : (m.write32 a v).read32 a = v := by
  have hbyte := fun x => Memory.read_write32 hm a x v
  have h0 : (m.write32 a v).read a = byteOfWord v 0 := by simp [hbyte]
  have h1 : (m.write32 a v).read (a + 1#32) = byteOfWord v 1 := by simp [hbyte]
  have h2 : (m.write32 a v).read (a + 2#32) = byteOfWord v 2 := by simp [hbyte]
  have h3 : (m.write32 a v).read (a + 3#32) = byteOfWord v 3 := by simp [hbyte]
  rw [Memory.read32_eq, h0, h1, h2, h3]
  exact byteOfWord_wordOfBytes v

/-- A reference is present when it is not 0 (R31). -/
theorem present_iff (ref : Word) : present ref = true ↔ ref ≠ 0#32 := by simp [present, Config.null]

theorem exec_stw_of_present {src : Word} (h : src ≠ 0#32) (reg : RegId) (s : State) :
    exec (.stw reg src) s = .next (advance { s with mem := s.mem.write32 src (rd s reg) }) := by
  simp [exec, execStw, (present_iff src).2 h]

theorem exec_ldw_of_present {src : Word} (h : src ≠ 0#32) (reg : RegId) (dst : Word) (s : State) :
    exec (.ldw reg src dst) s = .next (advance (wr reg (s.mem.read32 src) s)) := by
  simp [exec, execLdw, (present_iff src).2 h]

/-- A slot reads as the value a handler wrote to it, after its end (R76). -/
theorem regValue_advance_wr (i : Slot) (v : Word) (s : State) :
    regValue (advance (wr (.slot i) v s)) (.slot i) = v := by
  rw [regValue_slot]
  exact (slot_setSlot s i i v).trans (if_pos rfl)

/-- Settles O21: the load reads back the four bytes the store wrote. -/
theorem loadAfterStoreGivesTheStoredWord : Obligations.LoadAfterStoreGivesTheStoredWord := by
  unfold Obligations.LoadAfterStoreGivesTheStoredWord
  intro s reg i a dst ha hwf
  refine ⟨_, _, exec_stw_of_present ha reg s, exec_ldw_of_present ha (.slot i) dst _, ?_⟩
  rw [regValue_advance_wr, advance_mem, Memory.read32_write32 hwf, rd_eq_regValue]

end Sys2Proof.Machine
end

section
/-! Which step can change memory (R35, R41). -/

namespace Sys2Proof.Machine

/-- The instruction writes memory: a store in its memory form (R105, R106). -/
def StoresToMemory (i : Instr) : Prop :=
  ∃ reg src, src ≠ 0#32 ∧ (i = .stw reg src ∨ i = .sth reg src)

theorem takeJump_mem (dist : Half) (s : State) : (takeJump dist s).mem = s.mem :=
  takeJump_keeps State.mem (fun _ _ _ => rfl) (fun _ _ _ => rfl) dist s

theorem takeDone_mem (s : State) : (takeDone s).mem = s.mem :=
  takeDone_keeps State.mem (fun _ _ _ => rfl) (fun _ _ _ => rfl) s

/-- A handler that changes memory is that of a store with `src` present; every other operand form of every kind keeps
it. -/
theorem exec_mem {i : Instr} {s t : State} (h : exec i s = .next t) (hne : t.mem ≠ s.mem) : StoresToMemory i := by
  have keeps : ∀ {u}, Host.Outcome.next u = (.next t : Host.Outcome State Fault Refusal) →
      u.mem = s.mem → StoresToMemory i := fun hu hmem => by
    injection hu with hut
    exact absurd (hut ▸ hmem) hne
  cases i with
  | stw reg src =>
    simp only [exec, execStw] at h
    split at h
    case isTrue hsrc => exact ⟨reg, src, (present_iff src).1 hsrc, .inl rfl⟩
    case isFalse => exact keeps h rfl
  | sth reg src =>
    simp only [exec, execSth] at h
    split at h
    case isTrue hsrc => exact ⟨reg, src, (present_iff src).1 hsrc, .inr rfl⟩
    case isFalse => exact keeps h rfl
  | xfer reg len src dst => exact keeps h rfl
  | xfers reg len src dst =>
    simp only [exec, execXfers] at h
    split at h <;> exact keeps h rfl
  | ldw reg src dst =>
    simp only [exec, execLdw] at h
    split at h
    · exact keeps h (wr_mem _ _ _)
    · exact keeps h rfl
  | ldwr reg sourceId =>
    simp only [exec, execLdwr] at h
    split at h
    · exact keeps h (wr_mem _ _ _)
    · exact keeps h rfl
  | ldh reg src dst =>
    simp only [exec, execLdh] at h
    split at h <;> exact keeps h (wr_mem _ _ _)
  | add reg delta => exact keeps h (wr_mem _ _ _)
  | and reg mask => exact keeps h (wr_mem _ _ _)
  | shr reg amount => exact keeps h (wr_mem _ _ _)
  | shl reg amount => exact keeps h (wr_mem _ _ _)
  | unlk reg => exact keeps h (wr_mem _ _ _)
  | br count target => exact keeps h rfl
  | brz reg count target =>
    simp only [exec, execBrz] at h
    split at h <;> exact keeps h rfl
  | brnz reg count target =>
    simp only [exec, execBrnz] at h
    split at h <;> exact keeps h rfl
  | jmp dist => exact keeps h (takeJump_mem _ _)
  | jz reg dist mask =>
    simp only [exec, execJz] at h
    split at h
    · exact keeps h (takeJump_mem _ _)
    · exact keeps h rfl
  | jnz reg dist mask =>
    simp only [exec, execJnz] at h
    split at h
    · exact keeps h rfl
    · exact keeps h (takeJump_mem _ _)

/-- A received byte changes memory only when its endpoint is memory (R161). -/
theorem putEndpointByte_mem {e : Endpoint} {k : Nat} {b : Byte} {s : State}
    (hne : (putEndpointByte e k b s).mem ≠ s.mem) : ∃ a, e = .mem a := by
  rcases putEndpointByte_cases e k b s with ⟨-, h⟩ | ⟨a, he, -⟩ | ⟨i, -, h⟩
  · exact absurd (by rw [h]) hne
  · exact ⟨a, he⟩
  · exact absurd (by rw [h, setSlot_mem]) hne

/-- Another agent's turn that changes memory stores a received byte there, or is a host write. -/
theorem agentStep_mem {turn : Turn} {s t : State} (h : AgentStep turn s t) (hne : t.mem ≠ s.mem) :
    (∃ k j a, turn = .teStore k ∧ s.te = some j ∧ j.req.dst = .mem a) ∨ ∃ a b, turn = .hostWrite a b := by
  cases h with
  | stores k j _ _ hturn hte _ ht =>
    obtain ⟨a, ha⟩ := putEndpointByte_mem (ht ▸ hne)
    exact .inl ⟨k, j, a, hturn, hte, ha⟩
  | writes a b hturn _ => exact .inr ⟨a, b, hturn⟩
  | tells _ ht => exact absurd (ht ▸ rfl) hne
  | submits _ _ _ _ ht => exact absurd (ht ▸ rfl) hne
  | works _ _ _ ht => exact absurd (ht ▸ rfl) hne
  | completes _ _ _ ht => exact absurd (ht ▸ takeDone_mem _) hne
  | errs _ _ _ ht => exact absurd (ht ▸ rfl) hne
  | errsAndCompletes _ ht => exact absurd (ht ▸ takeDone_mem _) hne
  | resets _ ht => exact absurd (ht ▸ rfl) hne

/-- Settles O60: of the handlers only a store changes memory, of the other turns only a stored byte and a host write. -/
theorem onlyStoresReceivesAndTheHostWriteMemory : Obligations.OnlyStoresReceivesAndTheHostWriteMemory := by
  unfold Obligations.OnlyStoresReceivesAndTheHostWriteMemory
  intro s t hstep hne
  rcases step_changes State.mem (fun _ _ => rfl) returnToCaller_mem terminate_mem countDown_mem hstep hne with
    ⟨s0, i, hdec, hi, -, hne0⟩ | ⟨turn, s0, hnext, ha, hne0⟩
  · have hexec : exec i (countDown s0) = .next t := (step_of_decoding hdec hi).symm.trans hstep
    obtain ⟨reg, src, hsrc, rfl | rfl⟩ := exec_mem hexec hne0
    · exact .inl ⟨s0, reg, src, hdec, hsrc, .inl hi⟩
    · exact .inl ⟨s0, reg, src, hdec, hsrc, .inr hi⟩
  · obtain ⟨r, hr⟩ := turnNext_fields hnext
    have hte0 : s0.te = s.te := by rw [hr]
    rcases agentStep_mem ha hne0 with ⟨k, j, a, rfl, hte, hdst⟩ | ⟨a, b, rfl⟩
    · exact .inr (.inl ⟨s0, k, j, a, hnext, hte0 ▸ hte, hdst⟩)
    · exact .inr (.inr ⟨s0, a, b, hnext⟩)

end Sys2Proof.Machine
end

section
/-! The encoding: what decodes to what, and which fields of a record count (R50 to R61, R64). -/

namespace Sys2Proof

/-- The record of a well-formed instruction decodes to it, whatever stands in the fields its kind ignores (R57). -/
theorem decodeRecord_encodeRecord (i : Instr) (h : i.wellFormed = true) : decodeRecord (encodeRecord i) = .ok i := by
  cases i with
  | br | jmp => simp only [decodeRecord, encodeRecord, Kind.ofCode_kindCode, addressOfWord_eq, wordOfAddress_eq]
  | _ =>
    simp only [decodeRecord, encodeRecord, Kind.ofCode_kindCode, addressOfWord_eq, wordOfAddress_eq,
      RegId.ofCode_toCode _ h]

/-- Settles O1: the words of a record give it back, and the record of an instruction gives the instruction back. -/
theorem decodeOfEncodeIsTheInstruction : Obligations.DecodeOfEncodeIsTheInstruction := by
  unfold Obligations.DecodeOfEncodeIsTheInstruction
  intro i rest hi
  have hwords : Record.ofWords (encodeWords i).1 (encodeWords i).2.1 (encodeWords i).2.2 = encodeRecord i :=
    Record.ofWords_toWords (encodeRecord i)
  rw [encode, decode_bytesOfWords, hwords, decodeRecord_encodeRecord i hi]

/-- Every 8-bit code names a well-formed identifier (R53, R61). -/
@[simp] theorem RegId.wellFormed_ofCode (code : Byte) : (RegId.ofCode code).wellFormed = true := by
  unfold RegId.ofCode
  split_ifs with h0 h1 hnone
  · rfl
  · rfl
  · rfl
  · simp [RegId.wellFormed, h0, h1, hnone]

/-- A kind outside the defined set is refused by name (R60). -/
theorem decodeRecord_of_gt (r : Record) (h : 17 < r.kind.toNat) : decodeRecord r = .error (.invalidKind r.kind) := by
  simp only [decodeRecord, Kind.ofCode_of_gt r.kind h]

/-- A record of a defined kind is a well-formed instruction of that kind (R55, R61). -/
theorem decodeRecord_of_kindCode (k : Kind) (r : Record) (h : Config.kindCode k = r.kind) :
    ∃ i, decodeRecord r = .ok i ∧ i.wellFormed = true ∧ (encodeRecord i).kind = Config.kindCode k := by
  simp only [decodeRecord, ← h, Kind.ofCode_kindCode]
  cases k <;> exact ⟨_, rfl, by simp only [Instr.wellFormed, RegId.wellFormed_ofCode], rfl⟩

/-- Settles O3: the codes 0 to 17 are those of the kinds, and a code above them is the code of none. -/
theorem onlyUndefinedKindsAreRefused : Obligations.OnlyUndefinedKindsAreRefused := by
  unfold Obligations.OnlyUndefinedKindsAreRefused
  refine fun r => ⟨decodeRecord_of_gt r, fun hle => ?_⟩
  obtain ⟨k, hk, -⟩ := Config.kindCode_of_le r.kind hle
  exact hk ▸ decodeRecord_of_kindCode k r hk

/-- Two records of a defined kind that agree on the fields the kind uses decode alike: each case names the fields of its
row of R57's table. -/
theorem decodeRecord_congr_of_kindCode (k : Kind) {r r' : Record} (h : Config.kindCode k = r.kind)
    (h' : Config.kindCode k = r'.kind)
    (hreg : (Config.kindCode k).toNat ∉ [11, 14] → r.reg = r'.reg)
    (hlen : (Config.kindCode k).toNat ∉ [2, 4, 5, 6, 8, 17] → r.len = r'.len)
    (hsrc : (Config.kindCode k).toNat ∉ [3, 7, 9, 10, 14, 17] → r.src = r'.src)
    (hdst : (Config.kindCode k).toNat ∈ [0, 1, 2, 4] → r.dst = r'.dst) :
    decodeRecord r = decodeRecord r' := by
  simp only [decodeRecord, ← h, ← h', Kind.ofCode_kindCode]
  cases k with
  | xfer | xfers => rw [hreg (by decide), hlen (by decide), hsrc (by decide), hdst (by decide)]
  | ldw | ldh => rw [hreg (by decide), hsrc (by decide), hdst (by decide)]
  | stw | sth | and => rw [hreg (by decide), hsrc (by decide)]
  | ldwr | add | shr | shl => rw [hreg (by decide), hlen (by decide)]
  | br => rw [hlen (by decide), hsrc (by decide)]
  | brz | brnz | jz | jnz => rw [hreg (by decide), hlen (by decide), hsrc (by decide)]
  | jmp => rw [hlen (by decide)]
  | unlk => rw [hreg (by decide)]

/-- Settles O4: a defined kind reads only its own fields, and any other kind is refused by its code alone. -/
theorem fieldsAKindDoesNotUseAreIgnored : Obligations.FieldsAKindDoesNotUseAreIgnored := by
  unfold Obligations.FieldsAKindDoesNotUseAreIgnored
  intro r r' hkind hreg hlen hsrc hdst
  by_cases hle : r.kind.toNat ≤ 17
  · obtain ⟨k, hk, -⟩ := Config.kindCode_of_le r.kind hle
    rw [← hk] at hreg hlen hsrc hdst
    exact decodeRecord_congr_of_kindCode k hk (hk.trans hkind) hreg hlen hsrc hdst
  · rw [decodeRecord_of_gt r (by omega), decodeRecord_of_gt r' (by rw [← hkind]; omega), hkind]

/-- The record of three words of a number's bits has the fields that stand at those bits (R51, R64). -/
theorem Record.ofWords_ofNat (w : Nat) :
    Record.ofWords (.ofNat 32 (w % 2 ^ 96)) (.ofNat 32 (w % 2 ^ 96 / 2 ^ 32)) (.ofNat 32 (w % 2 ^ 96 / 2 ^ 64)) =
      ⟨.ofNat 8 w, .ofNat 8 (w / 2 ^ 8), .ofNat 16 (w / 2 ^ 16), .ofNat 32 (w / 2 ^ 32), .ofNat 32 (w / 2 ^ 64)⟩ := by
  simp only [Record.ofWords, Record.mk.injEq]
  refine ⟨?_, ?_, ?_, ?_, ?_⟩ <;>
    (apply BitVec.eq_of_toNat_eq
     simp only [BitVec.extractLsb'_toNat, BitVec.toNat_ofNat, Nat.shiftRight_eq_div_pow]
     omega)

/-- Settles O5: the twelve bytes are those of the words `W0`, `W1`, `W2`, whose fields are the bits R64 numbers. -/
theorem tableBitsReachTheFields : Obligations.TableBitsReachTheFields := by
  unfold Obligations.TableBitsReachTheFields
  intro w
  have hdecode := decode_bytesOfWords (.ofNat 32 (w % 2 ^ 96)) (.ofNat 32 (w % 2 ^ 96 / 2 ^ 32))
    (.ofNat 32 (w % 2 ^ 96 / 2 ^ 64)) []
  rw [List.append_nil, Record.ofWords_ofNat] at hdecode
  simp only [decodeTableWord, tableBytes, hdecode]
  cases decodeRecord _ <;> rfl

/-- Settles O2, by evaluating the decoder on each of the five records. -/
theorem writtenRecordsDecodeAsTheSpecSays : Obligations.WrittenRecordsDecodeAsTheSpecSays := by
  unfold Obligations.WrittenRecordsDecodeAsTheSpecSays
  exact ⟨by decide, by decide, by decide, by decide, by decide⟩

namespace Machine

/-- Settles O6: the step is the handler of the decoded instruction on the state counted down. -/
theorem stepRunsTheDecodedInstruction : Obligations.StepRunsTheDecodedInstruction := by
  unfold Obligations.StepRunsTheDecodedInstruction
  intro s s0 i hdec hi
  exact step_of_decoding hdec hi

end Machine

end Sys2Proof
end

section
/-! The dispatch step, one equation per branch of R72, and what it gives for a step of a running program. -/

namespace Sys2Proof.Machine

theorem dispatchStep_of_finished {s : State} (hrem : s.rem.toInt ≤ 0) (hslot : s.rsValid = false) :
    dispatchStep s = .next (terminate .finished .none s) := by
  simp [dispatchStep, exhausted, hrem, hslot]

theorem dispatchStep_of_return {s : State} (hrem : s.rem.toInt ≤ 0) (hslot : s.rsValid = true) :
    dispatchStep s = .next (returnToCaller s) := by
  simp [dispatchStep, exhausted, hrem, hslot]

theorem dispatchStep_of_null {s : State} (hrem : 0 < s.rem.toInt) (hpos : s.pos = 0#32) :
    dispatchStep s = .next (terminate .error .nullProgram s) := by
  simp [dispatchStep, exhausted, hrem, hpos, Config.null]

theorem dispatchStep_of_undefined {s : State} {e : DecodeError} (hrem : 0 < s.rem.toInt) (hpos : s.pos ≠ 0#32)
    (hfetch : fetched s = .error e) : dispatchStep s = .next (terminate .error .invalidInstructionKind s) := by
  simp [dispatchStep, exhausted, hrem, hpos, Config.null, hfetch]

/-- The interpreter's step in RUN is the dispatch step on the state with the turn used up (R71). -/
theorem step_of_run {s s0 : State} (hnext : InterpreterNext s s0) (hrun : s.phase = .run) :
    step s = dispatchStep s0 := by
  rw [step_of_interpreterNext hnext]
  obtain ⟨r, rfl⟩ := interpreterNext_fields hnext
  simp [interpreterTurn, hrun]

/-- Fetching at a position whose first byte is no kind code is refused (R52, R60). -/
theorem fetched_of_gt {s : State} (h : 17 < (s.mem.read s.pos).toNat) :
    fetched s = .error (.invalidKind (s.mem.read s.pos)) := by
  unfold fetched
  rw [decodeRecord_of_gt _ (by rwa [Memory.fetch_kind]), Memory.fetch_kind]

/-- Settles O7: the first test of the dispatch step, with the return slot empty. -/
theorem exhaustedArrayWithEmptySlotFinishes : Obligations.ExhaustedArrayWithEmptySlotFinishes := by
  unfold Obligations.ExhaustedArrayWithEmptySlotFinishes
  intro s s0 hnext hrun hrem hslot
  rw [step_of_run hnext hrun]
  obtain ⟨r, rfl⟩ := interpreterNext_fields hnext
  exact dispatchStep_of_finished hrem hslot

/-- Settles O8: the first test of the dispatch step, with a return pending. -/
theorem exhaustedArrayReturnsToTheCaller : Obligations.ExhaustedArrayReturnsToTheCaller := by
  unfold Obligations.ExhaustedArrayReturnsToTheCaller
  intro s s0 hnext hrun hrem hslot
  rw [step_of_run hnext hrun]
  obtain ⟨r, rfl⟩ := interpreterNext_fields hnext
  exact dispatchStep_of_return hrem hslot

/-- Settles O9: the null position is tested before anything is fetched. -/
theorem nullPositionEndsWithNullProgram : Obligations.NullPositionEndsWithNullProgram := by
  unfold Obligations.NullPositionEndsWithNullProgram
  intro s s0 hnext hrun hrem hpos
  rw [step_of_run hnext hrun]
  obtain ⟨r, rfl⟩ := interpreterNext_fields hnext
  exact ⟨dispatchStep_of_null hrem hpos, rfl⟩

/-- Settles O10: the fetched record is refused by its first byte, before the count falls. -/
theorem undefinedKindEndsWithInvalidKind : Obligations.UndefinedKindEndsWithInvalidKind := by
  unfold Obligations.UndefinedKindEndsWithInvalidKind
  rintro s s0 ⟨hnext, hrun, hrem, hpos⟩ hkind
  rw [step_of_run hnext hrun]
  obtain ⟨r, rfl⟩ := interpreterNext_fields hnext
  exact ⟨dispatchStep_of_undefined hrem hpos (fetched_of_gt hkind), rfl⟩

/-- Settles O11: of the two things the interpreter's turn can do, a dispatch step needs RUN. -/
theorem interpreterHasNoStepOutsideRun : Obligations.InterpreterHasNoStepOutsideRun := by
  unfold Obligations.InterpreterHasNoStepOutsideRun
  intro s s0 hnext hphase
  rw [step_of_interpreterNext hnext]
  obtain ⟨r, rfl⟩ := interpreterNext_fields hnext
  rcases interpreterTurn_cases { s with sched := r } with ⟨-, h⟩ | ⟨hrun, -⟩
  · exact h
  · exact absurd hrun hphase

/-- A jump of distance 0 undoes the decrement of the count and stays where it is (R84, R138). -/
theorem takeJump_zero_countDown (s : State) : takeJump 0#16 (countDown s) = s := by
  rcases takeJump_cases 0#16 (countDown s) with ⟨hd, -⟩ | ⟨hd, -⟩ | ⟨-, -, h⟩
  · exact absurd hd (by decide)
  · exact absurd hd (by decide)
  · have hpos : s.pos + 12#32 * (0#16 : Half).signExtend 32 = s.pos := by simp
    have hrem : s.rem - 1#16 - (0#16 - 1#16) = s.rem := by rw [sub_sub_sub_cancel_right, BitVec.sub_zero]
    rw [h, countDown_pos, countDown_rem, hpos, hrem]
    rfl

/-- Settles O33: the handler of `JMP 0` gives back the state before the count fell. -/
theorem jumpToItselfReturnsToTheSameState : Obligations.JumpToItselfReturnsToTheSameState := by
  unfold Obligations.JumpToItselfReturnsToTheSameState
  intro s s0 hdec hi
  calc step s = exec (.jmp 0#16) (countDown s0) := step_of_decoding hdec hi
    _ = .next (takeJump 0#16 (countDown s0)) := rfl
    _ = .next s0 := by rw [takeJump_zero_countDown]

end Sys2Proof.Machine
end

section
/-! What ends a wait (R70, R71, R190). -/

namespace Sys2Proof.Machine

/-- The turns that can end a wait: a completion event, in each of its three forms, and reset. -/
def EndsWait (turn : Turn) : Prop :=
  turn = .teDone ∨ turn = .teErrDone ∨ turn = .strayDone ∨ turn = .reset

/-- The interpreter's turn changes PHASE only in RUN (R71). -/
theorem interpreterStep_phase {s t : State} (h : InterpreterStep s t) (hne : t.phase ≠ s.phase) : s.phase = .run := by
  cases h with
  | passes _ ht => exact absurd (ht ▸ rfl) hne
  | returns hrun _ => exact hrun
  | ends _ _ hrun _ _ => exact hrun
  | handles _ hrun _ _ _ _ => exact hrun

/-- While the block is busy no submit is accepted, so of the other agents' turns only a completion event and reset
change PHASE. -/
theorem agentStep_phase {turn : Turn} {s t : State} (h : AgentStep turn s t) (hbusy : s.status = .busy)
    (hne : t.phase ≠ s.phase) : EndsWait turn := by
  cases h with
  | completes _ hturn _ _ => exact hturn.elim .inl fun hstray => .inr (.inr (.inl hstray))
  | errsAndCompletes hturn _ => exact .inr (.inl hturn)
  | resets hturn _ => exact .inr (.inr (.inr hturn))
  | submits _ _ _ hidle _ => simp [hbusy] at hidle
  | tells _ ht => exact absurd (ht ▸ rfl) hne
  | writes _ _ _ ht => exact absurd (ht ▸ rfl) hne
  | works _ _ _ ht => exact absurd (ht ▸ rfl) hne
  | stores _ _ _ _ _ _ _ ht =>
    exact absurd (ht ▸ putEndpointByte_keeps State.phase (fun _ _ => rfl) setSlot_phase _ _ _ _) hne
  | errs _ _ _ ht => exact absurd (ht ▸ rfl) hne

/-- Settles O54: by the invariant a block in WAIT is busy, and by the inversion of the step the rest follows. -/
theorem onlyCompletionEndsAWait : Obligations.OnlyCompletionEndsAWait := by
  unfold Obligations.OnlyCompletionEndsAWait
  intro s t hinv hwait hstep hleave
  obtain ⟨-, hbusy, -⟩ := hinv
  rcases step_next hstep with ⟨s0, hnext, h⟩ | ⟨turn, s0, hnext, h⟩
  · obtain ⟨r, rfl⟩ := interpreterNext_fields hnext
    have hrun : s.phase = .run := interpreterStep_phase (s := { s with sched := r }) h (by simpa [hwait] using hleave)
    simp [hwait] at hrun
  · obtain ⟨r, hr⟩ := turnNext_fields hnext
    have hphase : s0.phase = .wait := by rw [hr]; exact hwait
    have hstatus : s0.status = .busy := by rw [hr]; exact hbusy.2 (by simp [hwait])
    exact ⟨turn, s0, hnext, agentStep_phase h hstatus (by rwa [hphase])⟩

end Sys2Proof.Machine
end

section
/-! Which step can move the program counter and the return slot (R16, R86). -/

namespace Sys2Proof.Machine

/-- The saved return point, RS_REM and RS_POS (R16). -/
def returnPoint (s : State) : Half × Address := (s.rsRem, s.rsPos)

/-- The fields that say where the program is: POS, REM, RS_VALID and the saved return point (R14, R15, R16). -/
def programCounter (s : State) : Address × Half × Bool × Half × Address := (s.pos, s.rem, s.rsValid, returnPoint s)

theorem programCounter_eq_iff (s t : State) :
    programCounter t = programCounter s ↔
      t.pos = s.pos ∧ t.rem = s.rem ∧ t.rsValid = s.rsValid ∧ returnPoint t = returnPoint s := by
  simp [programCounter]

theorem returnPoint_eq_iff (s t : State) :
    returnPoint t = returnPoint s ↔ t.rsRem = s.rsRem ∧ t.rsPos = s.rsPos := by
  simp [returnPoint]

theorem setSlot_programCounter (s : State) (i : Slot) (v : Word) :
    programCounter (s.setSlot i v) = programCounter s := by
  simp [programCounter, returnPoint]

/-- Another agent's turn keeps the program counter, except that an accepted submit moves all but the saved return point,
and reset (R151, R200). -/
theorem agentStep_programCounter {turn : Turn} {s t : State} (h : AgentStep turn s t) :
    programCounter t = programCounter s ∨
    (∃ p c, turn = .submit p c ∧ s.status = .idle ∧ returnPoint t = returnPoint s) ∨ turn = .reset := by
  have hdone : ∀ u, programCounter (takeDone u) = programCounter u :=
    takeDone_keeps programCounter (fun _ _ _ => rfl) (fun _ _ _ => rfl)
  cases h with
  | submits p c hturn hidle ht => exact .inr (.inl ⟨p, c, hturn, hidle, ht ▸ rfl⟩)
  | resets hturn _ => exact .inr (.inr hturn)
  | tells _ ht => exact .inl (ht ▸ rfl)
  | writes _ _ _ ht => exact .inl (ht ▸ rfl)
  | works _ _ _ ht => exact .inl (ht ▸ rfl)
  | stores _ _ _ _ _ _ _ ht =>
    exact .inl (ht ▸ putEndpointByte_keeps programCounter (fun _ _ => rfl) setSlot_programCounter _ _ _ _)
  | completes _ _ _ ht => exact .inl (ht ▸ hdone _)
  | errs _ _ _ ht => exact .inl (ht ▸ rfl)
  | errsAndCompletes _ ht => exact .inl (ht ▸ hdone _)

/-- The interpreter's turn keeps the program counter outside RUN (R71). -/
theorem interpreterStep_programCounter {s t : State} (h : InterpreterStep s t) :
    programCounter t = programCounter s ∨ s.phase = .run := by
  cases h with
  | passes _ ht => exact .inl (ht ▸ rfl)
  | returns hrun _ => exact .inr hrun
  | ends _ _ hrun _ _ => exact .inr hrun
  | handles _ hrun _ _ _ _ => exact .inr hrun

/-- Of all handlers only that of a branch moves the saved return point, and it saves the count and the position it finds
(R134). -/
theorem handlerStep_returnPoint {i : Instr} {s t : State} (h : HandlerStep i s t)
    (hne : returnPoint t ≠ returnPoint s) :
    isBranch i = true ∧ t.rsValid = true ∧ t.rsRem = s.rem ∧ t.rsPos = s.pos := by
  have hwr : ∀ reg v, returnPoint (wr reg v s) = returnPoint s := fun reg v => by simp [returnPoint]
  cases h with
  | branch count target hi ht => exact ⟨hi, by simp [ht], by simp [ht], by simp [ht]⟩
  | register _ _ _ ht => exact absurd (ht ▸ hwr _ _) hne
  | clearStart _ _ _ _ _ _ ht => exact absurd (ht ▸ hwr _ _) hne
  | goOn ht => exact absurd (ht ▸ rfl) hne
  | toggle _ _ _ _ ht => exact absurd (ht ▸ rfl) hne
  | store _ _ ht => exact absurd (ht ▸ rfl) hne
  | start _ _ _ _ ht => exact absurd (ht ▸ rfl) hne
  | toggleStart _ _ _ _ _ _ _ _ _ ht => exact absurd (ht ▸ rfl) hne
  | jump ht => exact absurd (ht ▸ takeJump_keeps returnPoint (fun _ _ _ => rfl) (fun _ _ _ => rfl) _ _) hne
  | badRegister ht => exact absurd (ht ▸ rfl) hne

/-- A step that moves the program counter is the interpreter's in RUN, an accepted submit, or reset. -/
theorem step_programCounter {s t : State} (hstep : step s = .next t) (hne : programCounter t ≠ programCounter s) :
    (∃ s0, InterpreterNext s s0 ∧ s.phase = .run) ∨
    (∃ s0 p c, TurnNext (.submit p c) s s0 ∧ s.status = .idle) ∨ ∃ s0, TurnNext .reset s s0 := by
  rcases step_next hstep with ⟨s0, hnext, h⟩ | ⟨turn, s0, hnext, h⟩
  · obtain ⟨r, hr⟩ := interpreterNext_fields hnext
    have hkeep : programCounter s0 = programCounter s := by rw [hr]; rfl
    have hphase : s0.phase = s.phase := by rw [hr]
    rcases interpreterStep_programCounter h with heq | hrun
    · exact absurd (heq.trans hkeep) hne
    · exact .inl ⟨s0, hnext, hphase ▸ hrun⟩
  · obtain ⟨r, hr⟩ := turnNext_fields hnext
    have hkeep : programCounter s0 = programCounter s := by rw [hr]; rfl
    have hstatus : s0.status = s.status := by rw [hr]
    rcases agentStep_programCounter h with heq | ⟨p, c, rfl, hidle, -⟩ | rfl
    · exact absurd (heq.trans hkeep) hne
    · exact .inr (.inl ⟨s0, p, c, hnext, hstatus ▸ hidle⟩)
    · exact .inr (.inr ⟨s0, hnext⟩)

/-- A step that moves the saved return point is the dispatch step of a branch, which saves its own address and the count
after it, or reset. -/
theorem step_returnPoint {s t : State} (hstep : step s = .next t) (hne : returnPoint t ≠ returnPoint s) :
    (∃ s0 i, Decoding s s0 ∧ decode (bytesAt s.mem s.pos) = .ok (i, []) ∧ isBranch i = true ∧
      t.rsValid = true ∧ t.rsRem = s.rem - 1#16 ∧ t.rsPos = s.pos) ∨ ∃ s0, TurnNext .reset s s0 := by
  rcases step_changes returnPoint (fun _ _ => rfl) (fun _ => rfl) (fun _ _ _ => rfl) (fun _ => rfl) hstep hne with
    ⟨s0, i, hdec, hi, hh, hne0⟩ | ⟨turn, s0, hnext, h, hne0⟩
  · obtain ⟨hbranch, hvalid, hrem, hpos⟩ := handlerStep_returnPoint hh hne0
    obtain ⟨r, hr⟩ := interpreterNext_fields hdec.1
    exact .inl ⟨s0, i, hdec, hi, hbranch, hvalid, by rw [hrem, hr]; rfl, by rw [hpos, hr]; rfl⟩
  · rcases agentStep_programCounter h with heq | ⟨p, c, -, -, heq⟩ | rfl
    · obtain ⟨-, -, -, hpoint⟩ := (programCounter_eq_iff s0 t).1 heq
      exact absurd hpoint hne0
    · exact absurd heq hne0
    · exact .inr ⟨s0, hnext⟩

/-- Settles O59: a changed field is a changed program counter or a changed saved return point. -/
theorem onlyDispatchAndSubmitMoveTheProgramCounter : Obligations.OnlyDispatchAndSubmitMoveTheProgramCounter := by
  unfold Obligations.OnlyDispatchAndSubmitMoveTheProgramCounter
  refine fun s t hstep => ⟨fun hne => step_programCounter hstep fun heq => ?_,
    fun hne => step_returnPoint hstep fun heq => ?_⟩
  · obtain ⟨hpos, hrem, hvalid, -⟩ := (programCounter_eq_iff s t).1 heq
    simp [hpos, hrem, hvalid] at hne
  · obtain ⟨hrsRem, hrsPos⟩ := (returnPoint_eq_iff s t).1 heq
    simp [hrsRem, hrsPos] at hne

end Sys2Proof.Machine
end

section
/-! Straight-line programs run their count (R85). -/

namespace Sys2Proof.Machine

/-- A run of one step more. -/
theorem core_run_snoc (M : Host.Core) (k : Nat) {s u t : M.State} (hrun : M.run k s = .next u)
    (hstep : M.step u = .next t) : M.run (k + 1) s = .next t := by
  induction k generalizing s with
  | zero =>
    have hu : s = u := Host.Outcome.next.inj hrun
    rw [core_run_succ M 0 s t (hu ▸ hstep)]
    rfl
  | succ k ih =>
    cases hs : M.step s with
    | next v =>
      rw [core_run_succ M _ s v hs] at hrun ⊢
      exact ih hrun
    | fault e => simp [Host.Core.run, hs] at hrun
    | refused e => simp [Host.Core.run, hs] at hrun

theorem exec_ldh_of_present {src : Word} (h : src ≠ 0#32) (reg : RegId) (dst : Word) (s : State) :
    exec (.ldh reg src dst) s = .next (advance (wr reg ((s.mem.read16 src).zeroExtend 32) s)) := by
  simp [exec, execLdh, (present_iff src).2 h]

theorem exec_sth_of_present {src : Word} (h : src ≠ 0#32) (reg : RegId) (s : State) :
    exec (.sth reg src) s =
      .next (advance { s with mem := s.mem.write16 src ((rd s reg).extractLsb' 0 16) }) := by
  simp [exec, execSth, (present_iff src).2 h]

/-- A load from register with a valid source copies that slot (R103). -/
theorem exec_ldwr_of_valid {sourceId : Half} (h : sourceId = 0#16 ∨ sourceId = 1#16) (reg : RegId) (s : State) :
    ∃ i, exec (.ldwr reg sourceId) s = .next (advance (wr reg (s.slot i) s)) := by
  rcases h with rfl | rfl
  · exact ⟨.r0, rfl⟩
  · exact ⟨.r1, rfl⟩

/-- The program of `s` goes on in `t`: PHASE, the schedule, RS_VALID and REM as they were, POS one record further
(R76). -/
structure GoesOn (s t : State) : Prop where
  phase : t.phase = s.phase
  sched : t.sched = s.sched
  rsValid : t.rsValid = s.rsValid
  rem : t.rem = s.rem
  pos : t.pos = s.pos + 12#32

theorem goesOn_advance_wr (reg : RegId) (v : Word) (s : State) : GoesOn s (advance (wr reg v s)) where
  phase := by simp
  sched := by simp
  rsValid := by simp
  rem := by simp
  pos := by simp [Config.instrBytes]

theorem goesOn_advance_mem (m : Memory) (s : State) : GoesOn s (advance { s with mem := m }) :=
  ⟨rfl, rfl, rfl, rfl, rfl⟩

theorem goesOn_advance_toggleSelect (s : State) : GoesOn s (advance (toggleSelect s)) :=
  ⟨rfl, rfl, rfl, rfl, rfl⟩

/-- The handler of a straight-line instruction goes on to the next record (R76, R85). -/
theorem exec_of_straightLine {i : Instr} (h : straightLine i = true) (s : State) :
    ∃ t, exec i s = .next t ∧ GoesOn s t := by
  cases i with
  | xfers reg len src dst =>
    obtain rfl : len = 0#16 := by simpa [straightLine] using h
    exact ⟨_, rfl, goesOn_advance_toggleSelect s⟩
  | ldw reg src dst =>
    exact ⟨_, exec_ldw_of_present (by simpa [straightLine] using h) reg dst s, goesOn_advance_wr _ _ s⟩
  | ldwr reg sourceId =>
    obtain ⟨i, hi⟩ := exec_ldwr_of_valid (by simpa [straightLine] using h) reg s
    exact ⟨_, hi, goesOn_advance_wr _ _ s⟩
  | ldh reg src dst =>
    exact ⟨_, exec_ldh_of_present (by simpa [straightLine] using h) reg dst s, goesOn_advance_wr _ _ s⟩
  | stw reg src => exact ⟨_, exec_stw_of_present (by simpa [straightLine] using h) reg s, goesOn_advance_mem _ s⟩
  | sth reg src => exact ⟨_, exec_sth_of_present (by simpa [straightLine] using h) reg s, goesOn_advance_mem _ s⟩
  | add reg delta => exact ⟨_, rfl, goesOn_advance_wr _ _ s⟩
  | and reg mask => exact ⟨_, rfl, goesOn_advance_wr _ _ s⟩
  | shr reg amount => exact ⟨_, rfl, goesOn_advance_wr _ _ s⟩
  | shl reg amount => exact ⟨_, rfl, goesOn_advance_wr _ _ s⟩
  | unlk reg => exact ⟨_, rfl, goesOn_advance_wr _ _ s⟩
  | xfer | br | brz | brnz | jmp | jz | jnz => simp [straightLine] at h

/-- A positive signed count falls by one without wrapping (R79). -/
theorem toInt_sub_one_of_pos {c : Half} (h : 0 < c.toInt) : (c - 1#16).toInt = c.toInt - 1 := by
  have hone : (1#16 : Half).toInt = 1 := by decide
  have hlt := BitVec.toInt_lt (x := c)
  rw [BitVec.toInt_sub, hone, Int.bmod_eq_of_le (by omega) (by omega)]

/-- The state a straight-line program of `n` instructions from `s` is in after `k` of them, with no other agent
scheduled: running, the count `n - k`, the position `k` records further. -/
structure StraightRun (n : Nat) (s : State) (k : Nat) (u : State) : Prop where
  phase : u.phase = .run
  sched : u.sched = []
  rsValid : u.rsValid = false
  rem : u.rem.toInt = (n : Int) - k
  pos : u.pos = s.pos + 12#32 * BitVec.ofNat 32 k

/-- One more straight-line instruction: the step decodes it, and the count falls by one (R79). -/
theorem StraightRun.succ {n k : Nat} {s u : State} {i : Instr} (h : StraightRun n s k u) (hk : k < n)
    (hpos : u.pos ≠ 0#32) (hi : decode (bytesAt u.mem u.pos) = .ok (i, [])) (hline : straightLine i = true) :
    ∃ t, step u = .next t ∧ StraightRun n s (k + 1) t := by
  have hcount := h.rem
  have hrem : 0 < u.rem.toInt := by omega
  obtain ⟨t, ht, hgo⟩ := exec_of_straightLine hline (countDown u)
  refine ⟨t, (step_of_decoding ⟨.inl ⟨h.sched, rfl⟩, h.phase, hrem, hpos⟩ hi).trans ht, ?_, ?_, ?_, ?_, ?_⟩
  · exact hgo.phase.trans h.phase
  · exact hgo.sched.trans h.sched
  · exact hgo.rsValid.trans h.rsValid
  · rw [hgo.rem, countDown_rem, toInt_sub_one_of_pos hrem, hcount]
    push_cast
    ring
  · rw [hgo.pos, countDown_pos, h.pos, BitVec.ofNat_add, BitVec.mul_add, BitVec.mul_one, BitVec.add_assoc]

/-- Settles O35: by induction on the number of instructions run, with the state after each given by `StraightRun`; the
step after the last finds the count 0 and the return slot empty. -/
theorem straightLineProgramsRunTheirCount : Obligations.StraightLineProgramsRunTheirCount := by
  unfold Obligations.StraightLineProgramsRunTheirCount
  intro n s hrun hsched hslot hrem hprog
  have hreach : ∀ k, k ≤ n → ∃ u : State, core.run k s = .next u ∧ StraightRun n s k u := by
    intro k
    induction k with
    | zero => exact fun _ => ⟨s, rfl, hrun, hsched, hslot, by simpa using hrem, by simp⟩
    | succ k ih =>
      intro hk
      obtain ⟨u, hu, hat⟩ := ih (by omega)
      obtain ⟨hpos, i, hi, hline⟩ := hprog k u hk hu
      obtain ⟨t, ht, hnext⟩ := hat.succ hk hpos hi hline
      exact ⟨t, core_run_snoc core k hu ht, hnext⟩
  refine ⟨fun k hk => ?_, ?_⟩
  · obtain ⟨u, hu, hat⟩ := hreach k hk
    exact ⟨u, hu, hat.phase, hat.rem, hat.pos⟩
  · obtain ⟨u, hu, hat⟩ := hreach n le_rfl
    have hzero : u.rem.toInt = 0 := by simpa using hat.rem
    have hfinish : step u = .next (terminate .finished .none u) :=
      (step_of_run (.inl ⟨hat.sched, rfl⟩) hat.phase).trans (dispatchStep_of_finished hzero.le hat.rsValid)
    exact ⟨_, core_run_snoc core n hu hfinish, rfl, rfl, rfl, rfl, BitVec.eq_of_toInt_eq hzero⟩

end Sys2Proof.Machine
end

section
/-! The transfer instructions (41_transfer.md). -/

namespace Sys2Proof.Machine

/-- A transfer begins with its offset operands, and the machine waits for it (R77, R91, R160). -/
theorem beginTransfer_eq_started (reg : RegId) (len : Half) (src dst : Word) (s : State) :
    beginTransfer reg len src dst s =
      started s (bufferOf src (regValue s reg)) (bufferOf dst (regValue s reg)) len := by
  rw [beginTransfer, rd_eq_regValue, bufferAt_eq_bufferOf, bufferAt_eq_bufferOf, pending_startTransfer_eq_started]

/-- The select line is no operand: the registers read the same after its toggle (R13, R21). -/
@[simp] theorem regValue_toggleSelect (s : State) (reg : RegId) : regValue (toggleSelect s) reg = regValue s reg := rfl

/-- `XFER` begins its transfer whatever its byte count (R90, R93). -/
theorem exec_xfer (reg : RegId) (len : Half) (src dst : Word) (s : State) :
    exec (.xfer reg len src dst) s = .next (beginTransfer reg len src dst s) := rfl

/-- Settles O12: kind 0 is `XFER`, and the transfer that begins is that of the offset operands. -/
theorem transferStartsWithItsOffsetOperands : Obligations.TransferStartsWithItsOffsetOperands := by
  unfold Obligations.TransferStartsWithItsOffsetOperands
  refine ⟨fun r hkind => by simp only [decodeRecord_eq, hkind], fun s reg len src dst => ?_⟩
  rw [exec_xfer, beginTransfer_eq_started]

/-- With a byte count of 0 only the select line changes, and the program goes on (R76, R92). -/
theorem exec_xfers_zero (reg : RegId) (src dst : Word) (s : State) :
    exec (.xfers reg 0#16 src dst) s = .next (advance (toggleSelect s)) := rfl

/-- With any other byte count the transfer begins from the state with the select line inverted (R92). -/
theorem exec_xfers_of_ne_zero {len : Half} (h : len ≠ 0#16) (reg : RegId) (src dst : Word) (s : State) :
    exec (.xfers reg len src dst) s = .next (beginTransfer reg len src dst (toggleSelect s)) := by
  simp only [exec, execXfers, if_neg h]

/-- Settles O13: the byte count splits the handler of `XFERS`; the toggle that comes first leaves the operands of the
transfer as they are. -/
theorem selectTogglesBeforeTheTransfer : Obligations.SelectTogglesBeforeTheTransfer := by
  unfold Obligations.SelectTogglesBeforeTheTransfer
  refine ⟨fun r hkind => by simp only [decodeRecord_eq, hkind], fun s reg len src dst => ⟨?_, ?_⟩⟩
  · rintro rfl
    exact exec_xfers_zero reg src dst s
  · intro hne
    rw [exec_xfers_of_ne_zero hne, beginTransfer_eq_started, regValue_toggleSelect]
    rfl

end Sys2Proof.Machine
end

section
/-! The memory forms of the loads and stores (R100 to R106). -/

namespace Sys2Proof.Machine

/-- The end of a handler that writes a register, in the statements' words (R13, R76). -/
theorem advance_wr_eq_continued (reg : RegId) (v : Word) (s : State) :
    advance (wr reg v s) = continued (withReg s reg v) := by
  rw [advance_eq_continued, wr_eq_withReg]

/-- Settles O14: the word `MemRead` reads is the one the statement names byte by byte. -/
theorem loadWordReadsTheWordAtItsOperand : Obligations.LoadWordReadsTheWordAtItsOperand := by
  unfold Obligations.LoadWordReadsTheWordAtItsOperand
  refine ⟨fun r hkind => by simp only [decodeRecord_eq, hkind], fun s reg src dst v hsrc hv => ?_⟩
  rw [exec_ldw_of_present hsrc, ← (wordAt_iff s.mem src v).1 hv, advance_wr_eq_continued]

/-- A word whose number is the half-word at an address is that half-word with its upper half zero (R33, R104). -/
theorem halfAt_iff (m : Memory) (a v : Word) : HalfAt m a v.toNat ↔ v = (m.read16 a).zeroExtend 32 := by
  have hread : (m.read16 a).toNat = (m.read a).toNat + 256 * (m.read (a + 1#32)).toNat := halfAt_read16 m a
  have hlt : (m.read16 a).toNat < 2 ^ 16 := (m.read16 a).isLt
  rw [← BitVec.toNat_inj, BitVec.toNat_setWidth, Nat.mod_eq_of_lt (by omega), hread]
  rfl

/-- Settles O15: the half-word `MemRead` reads, zero-extended, is the one the statement names byte by byte. -/
theorem loadHalfWordZeroExtends : Obligations.LoadHalfWordZeroExtends := by
  unfold Obligations.LoadHalfWordZeroExtends
  refine ⟨fun r hkind => by simp only [decodeRecord_eq, hkind], fun s reg src dst v hsrc hv => ?_⟩
  rw [exec_ldh_of_present hsrc, ← (halfAt_iff s.mem src v).1 hv, advance_wr_eq_continued]

/-- Settles O17: the identifiers 0 and 1 name their slots, and every other value of the field names none. -/
theorem loadFromRegisterValidatesItsSource : Obligations.LoadFromRegisterValidatesItsSource := by
  unfold Obligations.LoadFromRegisterValidatesItsSource
  refine ⟨fun r hkind => by simp only [decodeRecord_eq, hkind], rfl, fun s reg sourceId => ⟨?zero, ?one, ?other⟩⟩
  case zero =>
    intro h
    obtain rfl : sourceId = 0#16 := BitVec.eq_of_toInt_eq h
    rw [← advance_wr_eq_continued]
    rfl
  case one =>
    intro h
    obtain rfl : sourceId = 1#16 := BitVec.eq_of_toInt_eq h
    rw [← advance_wr_eq_continued]
    rfl
  case other =>
    intro h
    have hzero : sourceId ≠ 0#16 := by rintro rfl; simp at h
    have hone : sourceId ≠ 1#16 := by rintro rfl; simp at h
    simp only [exec, execLdwr, sourceSlot, if_neg hzero, if_neg hone, raiseError_eq, terminate_eq_ended]

/-- A four-byte write, seen through the one-byte read, its four addresses in rising order (R33). They differ from each
other at the top of the address space too, so the order in which they are tested does not matter. -/
theorem Memory.read_write32_rising {m : Memory} (hm : m.wf = true) (a x v : Word) :
    (m.write32 a v).read x =
      if x = a then byteOfWord v 0 else if x = a + 1#32 then byteOfWord v 1
      else if x = a + 2#32 then byteOfWord v 2 else if x = a + 3#32 then byteOfWord v 3 else m.read x := by
  rw [Memory.read_write32 hm]
  by_cases h0 : x = a
  · simp [h0]
  by_cases h1 : x = a + 1#32
  · simp [h1]
  by_cases h2 : x = a + 2#32
  · simp [h2]
  · simp [h0, h1, h2]

/-- The bytes of a word as numbers (R33). -/
theorem byteOfWord_toNat_of_lt_four (w : Word) :
    (byteOfWord w 0).toNat = w.toNat % 256 ∧ (byteOfWord w 1).toNat = w.toNat / 256 % 256 ∧
    (byteOfWord w 2).toNat = w.toNat / 65536 % 256 ∧ (byteOfWord w 3).toNat = w.toNat / 16777216 := by
  simp only [byteOfWord_toNat]
  omega

/-- Settles O18: the four bytes are those of the register's value. -/
theorem storeWordWritesFourBytes : Obligations.StoreWordWritesFourBytes := by
  unfold Obligations.StoreWordWritesFourBytes
  refine ⟨fun r hkind => by simp only [decodeRecord_eq, hkind], fun s reg src hsrc hwf => ?_⟩
  refine ⟨_, exec_stw_of_present hsrc reg s, rfl, fun a => ?_⟩
  obtain ⟨h0, h1, h2, h3⟩ := byteOfWord_toNat_of_lt_four (regValue s reg)
  rw [advance_mem, Memory.read_write32_rising hwf, rd_eq_regValue]
  simp only [apply_ite BitVec.toNat, h0, h1, h2, h3]

/-- A two-byte write, seen through the one-byte read, its two addresses in rising order (R33). -/
theorem Memory.read_write16_rising {m : Memory} (hm : m.wf = true) (a x : Word) (v : Half) :
    (m.write16 a v).read x =
      if x = a then v.extractLsb' 0 8 else if x = a + 1#32 then v.extractLsb' 8 8 else m.read x := by
  rw [Memory.read_write16 hm]
  by_cases h0 : x = a
  · simp [h0]
  · simp [h0]

/-- The bytes of a word's lower half as numbers (R33, R106). -/
theorem lowHalf_bytes_toNat (w : Word) :
    ((w.extractLsb' 0 16).extractLsb' 0 8).toNat = w.toNat % 256 ∧
    ((w.extractLsb' 0 16).extractLsb' 8 8).toNat = w.toNat / 256 % 256 := by
  simp only [BitVec.extractLsb'_toNat, Nat.shiftRight_eq_div_pow]
  omega

/-- Settles O19: the two bytes are those of the lower half of the register's value. -/
theorem storeHalfWordWritesTwoBytes : Obligations.StoreHalfWordWritesTwoBytes := by
  unfold Obligations.StoreHalfWordWritesTwoBytes
  refine ⟨fun r hkind => by simp only [decodeRecord_eq, hkind], fun s reg src hsrc hwf => ?_⟩
  refine ⟨_, exec_sth_of_present hsrc reg s, rfl, fun a => ?_⟩
  obtain ⟨h0, h1⟩ := lowHalf_bytes_toNat (regValue s reg)
  rw [advance_mem, Memory.read_write16_rising hwf, rd_eq_regValue]
  simp only [apply_ite BitVec.toNat, h0, h1]

end Sys2Proof.Machine
end

section
/-! The peripheral forms of the loads and stores: the transfers they start (R100 to R106, R160). -/

namespace Sys2Proof.Machine

/-- A load into a register without a slot receives into `dst`, if that is present (R100, R104). -/
theorem loadEndpoint_of_ne_slot {reg : RegId} (h : ∀ i, reg ≠ .slot i) (dst : Word) :
    loadEndpoint reg dst = bufferOf dst 0#32 := by
  rw [← bufferAt_eq_bufferOf]
  cases reg with
  | slot i => exact absurd rfl (h i)
  | none => rfl
  | unassigned c => rfl

/-- A store of a register without a slot has no transmit endpoint (R105, R106). -/
theorem storeEndpoint_of_ne_slot {reg : RegId} (h : ∀ i, reg ≠ .slot i) : storeEndpoint reg = .absent := by
  cases reg with
  | slot i => exact absurd rfl (h i)
  | none => rfl
  | unassigned c => rfl

/-- A register without a slot takes no value (R13). -/
theorem withReg_of_ne_slot {reg : RegId} (h : ∀ i, reg ≠ .slot i) (v : Word) (s : State) : withReg s reg v = s := by
  simp [withReg, h]

theorem exec_ldw_of_absent (reg : RegId) (dst : Word) (s : State) :
    exec (.ldw reg 0#32 dst) s = .next (started s .absent (loadEndpoint reg dst) 4#16) := rfl

theorem exec_ldh_of_absent (reg : RegId) (dst : Word) (s : State) :
    exec (.ldh reg 0#32 dst) s = .next (started (withReg s reg 0#32) .absent (loadEndpoint reg dst) 2#16) := by
  rw [← wr_eq_withReg]
  rfl

theorem exec_stw_of_absent (reg : RegId) (s : State) :
    exec (.stw reg 0#32) s = .next (started s (storeEndpoint reg) .absent 4#16) := rfl

theorem exec_sth_of_absent (reg : RegId) (s : State) :
    exec (.sth reg 0#32) s = .next (started s (storeEndpoint reg) .absent 2#16) := rfl

/-- Settles O16: the slot is the endpoint when `reg` names one; else it is `dst`, and clearing the slot does nothing. -/
theorem loadsWithoutSourceStartAReceive : Obligations.LoadsWithoutSourceStartAReceive := by
  unfold Obligations.LoadsWithoutSourceStartAReceive
  refine fun s reg dst => ⟨?_, fun hne => ?_⟩
  · rintro i rfl
    exact ⟨exec_ldw_of_absent _ dst s, exec_ldh_of_absent _ dst s⟩
  · rw [exec_ldw_of_absent, exec_ldh_of_absent, loadEndpoint_of_ne_slot hne, withReg_of_ne_slot hne]
    exact ⟨rfl, rfl⟩

/-- Settles O20: the slot is the endpoint when `reg` names one; else there is none. -/
theorem storesWithoutTargetStartATransmit : Obligations.StoresWithoutTargetStartATransmit := by
  unfold Obligations.StoresWithoutTargetStartATransmit
  refine fun s reg => ⟨?_, fun hne => ?_⟩
  · rintro i rfl
    exact ⟨exec_stw_of_absent _ s, exec_sth_of_absent _ s⟩
  · rw [exec_stw_of_absent, exec_sth_of_absent, storeEndpoint_of_ne_slot hne]
    exact ⟨rfl, rfl⟩

end Sys2Proof.Machine
end

section
/-! A word in which bytes are replaced (R102). -/

namespace Sys2Proof.Machine

/-- The mask of one byte has its low eight bits set. -/
theorem getLsbD_byteMask (n : Nat) : (0xFF#32 : Word).getLsbD n = decide (n < 8) := by
  have hmask : (0xFF#32 : Word) = (BitVec.allOnes 8).setWidth 32 := by decide
  rw [hmask, BitVec.getLsbD_setWidth, BitVec.getLsbD_allOnes, ← Bool.decide_and, decide_eq_decide]
  omega

/-- Replacing byte `k` replaces bits `8k+7:8k` and keeps the others; a byte offset beyond the word replaces none. -/
theorem getLsbD_setByteOfWord (w : Word) (k : Nat) (b : Byte) {m : Nat} (hm : m < 32) :
    (setByteOfWord w k b).getLsbD m =
      if 8 * k ≤ m ∧ m < 8 * k + 8 then b.getLsbD (m - 8 * k) else w.getLsbD m := by
  simp only [setByteOfWord, BitVec.getLsbD_or, BitVec.getLsbD_and, BitVec.getLsbD_not, BitVec.getLsbD_shiftLeft,
    BitVec.getLsbD_setWidth, getLsbD_byteMask, hm, decide_true, Bool.true_and]
  by_cases hlow : m < 8 * k
  · simp [hlow]
  · by_cases hhigh : m < 8 * k + 8
    · simp [hlow, hhigh, show 8 * k ≤ m by omega, show m - 8 * k < 8 by omega, show m - 8 * k < 32 by omega]
    · have hb : b.getLsbD (m - 8 * k) = false := BitVec.getLsbD_of_ge _ _ (by omega)
      simp [hlow, hhigh, hb, show ¬m - 8 * k < 8 by omega]

/-- A byte reads as it was put, and every other byte as before. -/
theorem byteOfWord_setByteOfWord (w : Word) {k : Nat} (b : Byte) {n : Nat} (hn : n < 4) :
    byteOfWord (setByteOfWord w k b) n = if n = k then b else byteOfWord w n := by
  apply BitVec.eq_of_getLsbD_eq
  intro m hm
  simp only [byteOfWord, BitVec.getLsbD_extractLsb', hm, decide_true, Bool.true_and]
  rw [getLsbD_setByteOfWord w k b (by omega)]
  by_cases hk : n = k
  · simp [hk, hm]
  · rw [if_neg (by omega), if_neg hk, BitVec.getLsbD_extractLsb']
    simp [hm]

end Sys2Proof.Machine
end

section
/-! The moves of the Transfer Engine when they are enabled, one equation for each (R161, R164). -/

namespace Sys2Proof.Machine

theorem teTake_of_new {s : State} {j : Job} {k : Nat} (hte : s.te = some j) (hk : k < j.req.n.toNat)
    (hnew : k ∉ j.taken.map Prod.fst) :
    teTake k s = { s with te := some { j with taken := (k, endpointByte s j.req.src k) :: j.taken } } := by
  simp only [teTake, hte]
  exact if_pos ⟨hk, hnew⟩

theorem teSend_of_next {s : State} {j : Job} {alt b : Byte} (hte : s.te = some j) (hlt : j.sent < j.req.n.toNat)
    (hb : j.nextByte alt = some b) :
    teSend alt s = emit (.tx j.sent b) { s with te := some { j with sent := j.sent + 1 } } := by
  simp only [teSend, hte, hb, if_pos hlt]

theorem teReceive_of_room {s : State} {j : Job} (rx : Byte) (hte : s.te = some j)
    (hlt : j.arrived.length < j.req.n.toNat) :
    teReceive rx s = { s with te := some { j with arrived := j.arrived ++ [rx] } } := by
  simp only [teReceive, hte, if_pos hlt]

theorem teStore_of_arrived {s : State} {j : Job} {k : Nat} {b : Byte} (hte : s.te = some j)
    (hb : j.arrived[k]? = some b) (hnew : k ∉ j.stored) :
    teStore k s = putEndpointByte j.req.dst k b { s with te := some { j with stored := k :: j.stored } } := by
  simp only [teStore, hte, hb, if_neg hnew]

theorem teDone_of_finished {s : State} {j : Job} (hte : s.te = some j) (hfin : j.finished = true) :
    teDone s = takeDone { s with te := none } := by
  simp only [teDone, hte, hfin, if_true]

/-- The completion gate opens in WAIT when no error was counted since the SUBMIT (R181). -/
theorem takeDone_of_wait {s : State} (hwait : s.phase = .wait) (herr : s.errCnt = s.errBase) :
    takeDone s = { s with inflight := none, phase := .run } := by
  simp only [takeDone, hwait, if_pos herr]

/-- A byte received into a slot replaces that byte of the slot (R102, R161). -/
theorem putEndpointByte_reg (i : Slot) (k : Nat) (b : Byte) (s : State) :
    putEndpointByte (.reg i) k b s = withReg s (.slot i) (setByteOfWord (regValue s (.slot i)) k b) := by
  rw [← wr_eq_withReg, regValue_slot]
  rfl

/-- Settles O47: the stored byte replaces its bits of the slot, and without an endpoint nothing but the job moves. -/
theorem receivedByteLandsInTheSlot : Obligations.ReceivedByteLandsInTheSlot := by
  unfold Obligations.ReceivedByteLandsInTheSlot
  intro s s0 k b j hnext hte hb hnew
  rw [step_of_turnNext hnext]
  obtain ⟨r, rfl⟩ := turnNext_fields hnext
  simp only [takeTurn, teStore_of_arrived (s := { s with sched := r }) hte hb hnew]
  refine ⟨?_, ?_⟩
  · intro i hdst
    rw [hdst, putEndpointByte_reg]
    exact ⟨_, _, rfl, rfl, fun m hm => getLsbD_setByteOfWord _ k b hm⟩
  · intro hdst
    rw [hdst]
    rfl

end Sys2Proof.Machine
end

section
/-! A receive into a slot, from its start to its completion (R100 to R104, R161, R181). -/

namespace Sys2Proof.Machine

/-- A receive into slot `i` that began in the state `u`: the job is `j`, the slot holds `v` so far, `out` went out since,
newest first, and `turns` are still to come. -/
def receiving (u : State) (i : Slot) (j : Job) (v : Word) (out : List Output) (turns : List Turn) : State :=
  withReg { u with te := some j, trace := out ++ u.trace, sched := turns } (.slot i) v

/-- The end of a receive into slot `i` that began in the state `u`: the program goes on, with the slot holding `v`. -/
def received (u : State) (i : Slot) (v : Word) (out : List Output) (turns : List Turn) : State :=
  withReg { u with te := none, inflight := none, phase := .run, trace := out ++ u.trace, sched := turns } (.slot i) v

/-- The job of `r` when its first bytes, `bs`, have each been taken, sent, received and stored, in increasing order. -/
def movedJob (r : Transfer) (bs : List Byte) : Job :=
  ⟨r, (List.range bs.length).reverse.map (·, 0#8), bs.length, bs, (List.range bs.length).reverse, false⟩

/-- A receive into a slot starts with no byte moved and the slot holding what the handler left in it. -/
theorem started_withReg_eq_receiving (s : State) (i : Slot) (v : Word) (n : Half) :
    started (withReg s (.slot i) v) .absent (.reg i) n =
      receiving (started s .absent (.reg i) n) i (movedJob ⟨.absent, .reg i, n⟩ []) v [] s.sched := rfl

theorem withReg_regValue (s : State) (i : Slot) : withReg s (.slot i) (regValue s (.slot i)) = s := by
  cases i <;> rfl

theorem regValue_receiving (u : State) (i : Slot) (j : Job) (v : Word) (out : List Output) (turns : List Turn) :
    regValue (receiving u i j v out turns) (.slot i) = v := by
  cases i <;> rfl

theorem withReg_receiving (u : State) (i : Slot) (j : Job) (v w : Word) (out : List Output) (turns : List Turn) :
    withReg (receiving u i j v out turns) (.slot i) w = receiving u i j w out turns := by
  cases i <;> rfl

section

variable {u : State} {i : Slot} {j : Job} {v : Word} {out : List Output} {turns : List Turn} (f : Nat)

/-- Each turn of a receive that answers a state is one step of its run. -/
theorem run_receiving {turn : Turn} {w : State} (h : takeTurn turn (receiving u i j v out turns) = .next w) :
    core.run (f + 1) (receiving u i j v out (turn :: turns)) = core.run f w :=
  run_turn f _ w turn turns rfl h

/-- Without a transmit endpoint the byte taken is 0x00 (R161). -/
theorem run_teTake {k : Nat} (hsrc : j.req.src = .absent) (hk : k < j.req.n.toNat)
    (hnew : k ∉ j.taken.map Prod.fst) :
    core.run (f + 1) (receiving u i j v out (.teTake k :: turns)) =
      core.run f (receiving u i { j with taken := (k, 0#8) :: j.taken } v out turns) := by
  apply run_receiving
  rw [takeTurn, teTake_of_new rfl hk hnew, hsrc]
  rfl

theorem run_teSend {alt b : Byte} (hlt : j.sent < j.req.n.toNat) (hb : j.nextByte alt = some b) :
    core.run (f + 1) (receiving u i j v out (.teSend alt :: turns)) =
      core.run f (receiving u i { j with sent := j.sent + 1 } v (.tx j.sent b :: out) turns) := by
  apply run_receiving
  rw [takeTurn, teSend_of_next rfl hlt hb]
  rfl

theorem run_teReceive (rx : Byte) (hlt : j.arrived.length < j.req.n.toNat) :
    core.run (f + 1) (receiving u i j v out (.teReceive rx :: turns)) =
      core.run f (receiving u i { j with arrived := j.arrived ++ [rx] } v out turns) := by
  apply run_receiving
  rw [takeTurn, teReceive_of_room rx rfl hlt]
  rfl

theorem run_teStore {k : Nat} {b : Byte} (hdst : j.req.dst = .reg i) (hb : j.arrived[k]? = some b)
    (hnew : k ∉ j.stored) :
    core.run (f + 1) (receiving u i j v out (.teStore k :: turns)) =
      core.run f (receiving u i { j with stored := k :: j.stored } (setByteOfWord v k b) out turns) := by
  apply run_receiving
  have hstore := teStore_of_arrived (s := receiving u i j v out turns) rfl hb hnew
  have hput : putEndpointByte (.reg i) k b (receiving u i { j with stored := k :: j.stored } v out turns) =
      receiving u i { j with stored := k :: j.stored } (setByteOfWord v k b) out turns := by
    rw [putEndpointByte_reg, regValue_receiving, withReg_receiving]
  rw [hdst] at hstore
  exact congrArg Host.Outcome.next (hstore.trans hput)

/-- The completion of a finished job, with no error counted, ends the receive (R164, R181). -/
theorem run_teDone (hfin : j.finished = true) (hwait : u.phase = .wait) (herr : u.errCnt = u.errBase) :
    core.run (f + 1) (receiving u i j v out (.teDone :: turns)) = core.run f (received u i v out turns) := by
  apply run_receiving
  rw [takeTurn, teDone_of_finished rfl hfin]
  exact congrArg Host.Outcome.next (takeDone_of_wait hwait herr)

/-- One more byte moves in order: its four turns take a zero byte, send it, receive `b` and store it in the slot. -/
theorem run_moveByte {r : Transfer} {bs : List Byte} (alt b : Byte) (hsrc : r.src = .absent) (hdst : r.dst = .reg i)
    (hlt : bs.length < r.n.toNat) :
    core.run (f + 4) (receiving u i (movedJob r bs) v out
        (.teTake bs.length :: .teSend alt :: .teReceive b :: .teStore bs.length :: turns)) =
      core.run f (receiving u i (movedJob r (bs ++ [b])) (setByteOfWord v bs.length b)
        (.tx bs.length 0#8 :: out) turns) := by
  have hjob : movedJob r (bs ++ [b]) =
      ⟨r, (bs.length, 0#8) :: (movedJob r bs).taken, bs.length + 1, bs ++ [b], bs.length :: (movedJob r bs).stored,
        false⟩ := by
    simp [movedJob, List.range_succ]
  rw [hjob, run_teTake (f + 3) hsrc hlt (by simp [movedJob]),
    run_teSend (f + 2) (b := 0#8) hlt (by simp [Job.nextByte, movedJob]),
    run_teReceive (f + 1) b hlt, run_teStore f (b := b) hdst (by simp [movedJob]) (by simp [movedJob])]
  rfl

end

/-- A word with its four bytes replaced is the word of those bytes (R33, R102). -/
theorem setByteOfWord_four (v : Word) (b0 b1 b2 b3 : Byte) :
    setByteOfWord (setByteOfWord (setByteOfWord (setByteOfWord v 0 b0) 1 b1) 2 b2) 3 b3 = wordOfBytes b0 b1 b2 b3 := by
  rw [← byteOfWord_wordOfBytes (setByteOfWord _ 3 b3)]
  simp [byteOfWord_setByteOfWord]

/-- The zero word with its two low bytes replaced, the higher one first, is their half-word with the upper half zero
(R102, R104). -/
theorem setByteOfWord_two (b0 b1 : Byte) :
    setByteOfWord (setByteOfWord 0#32 1 b1) 0 b0 = wordOfBytes b0 b1 0#8 0#8 := by
  have hzero : ∀ k, byteOfWord 0#32 k = 0#8 := by simp [byteOfWord]
  rw [← byteOfWord_wordOfBytes (setByteOfWord _ 0 b0)]
  simp [byteOfWord_setByteOfWord, hzero]

/-- Four bytes that move in order, and the completion: the slot ends with their word, whatever it held (R100, R102). -/
theorem run_receiveWord (u : State) (i : Slot) (v : Word) (b0 b1 b2 b3 alt : Byte) (hwait : u.phase = .wait)
    (herr : u.errCnt = u.errBase) :
    core.run 17 (receiving u i (movedJob ⟨.absent, .reg i, 4#16⟩ []) v []
        [.teTake 0, .teSend alt, .teReceive b0, .teStore 0, .teTake 1, .teSend alt, .teReceive b1, .teStore 1,
          .teTake 2, .teSend alt, .teReceive b2, .teStore 2, .teTake 3, .teSend alt, .teReceive b3, .teStore 3,
          .teDone]) =
      .next (received u i (wordOfBytes b0 b1 b2 b3) [.tx 3 0#8, .tx 2 0#8, .tx 1 0#8, .tx 0 0#8] []) := by
  rw [← setByteOfWord_four v]
  refine Eq.trans (run_moveByte 13 (bs := []) alt b0 rfl rfl (show 0 < 4 by decide)) ?_
  refine Eq.trans (run_moveByte 9 (bs := [b0]) alt b1 rfl rfl (show 1 < 4 by decide)) ?_
  refine Eq.trans (run_moveByte 5 (bs := [b0, b1]) alt b2 rfl rfl (show 2 < 4 by decide)) ?_
  refine Eq.trans (run_moveByte 1 (bs := [b0, b1, b2]) alt b3 rfl rfl (show 3 < 4 by decide)) ?_
  exact run_teDone 0 rfl hwait herr

/-- Two bytes stored in the other order, and the completion: a slot that was clear ends with their half-word (R104). -/
theorem run_receiveHalf (u : State) (i : Slot) (b0 b1 alt : Byte) (hwait : u.phase = .wait)
    (herr : u.errCnt = u.errBase) :
    core.run 9 (receiving u i (movedJob ⟨.absent, .reg i, 2#16⟩ []) 0#32 []
        [.teReceive b0, .teReceive b1, .teStore 1, .teTake 1, .teTake 0, .teSend alt, .teSend alt, .teStore 0,
          .teDone]) =
      .next (received u i (wordOfBytes b0 b1 0#8 0#8) [.tx 1 0#8, .tx 0 0#8] []) := by
  rw [← setByteOfWord_two]
  refine Eq.trans (run_teReceive 8 b0 (show 0 < 2 by decide)) ?_
  refine Eq.trans (run_teReceive 7 b1 (show 1 < 2 by decide)) ?_
  refine Eq.trans (run_teStore 6 (b := b1) rfl rfl List.not_mem_nil) ?_
  refine Eq.trans (run_teTake 5 rfl (show 1 < 2 by decide) List.not_mem_nil) ?_
  refine Eq.trans (run_teTake 4 rfl (show 0 < 2 by decide) (show 0 ∉ [1] by decide)) ?_
  refine Eq.trans (run_teSend 3 (b := 0#8) (show 0 < 2 by decide) rfl) ?_
  refine Eq.trans (run_teSend 2 (b := 0#8) (show 1 < 2 by decide) rfl) ?_
  refine Eq.trans (run_teStore 1 (b := b0) rfl rfl (show 0 ∉ [1] by decide)) ?_
  exact run_teDone 0 rfl hwait herr

/-- The dispatch turn of a running program is the step of the handler it decodes. -/
theorem run_dispatch (f : Nat) {s t : State} {i : Instr} {turns : List Turn} (hsched : s.sched = .dispatch :: turns)
    (hrun : s.phase = .run) (hrem : 0 < s.rem.toInt) (hpos : s.pos ≠ 0#32)
    (hi : decode (bytesAt s.mem s.pos) = .ok (i, []))
    (hexec : exec i (countDown { s with sched := turns }) = .next t) : core.run (f + 1) s = core.run f t :=
  run_succ f s t ((step_of_decoding ⟨.inr ⟨turns, hsched, rfl⟩, hrun, hrem, hpos⟩ hi).trans hexec)

/-- Settles O48: the handler starts the receive, and `run_receiveWord` is the rest of the run. -/
theorem loadWordReceivesLowestByteFirst : Obligations.LoadWordReceivesLowestByteFirst := by
  unfold Obligations.LoadWordReceivesLowestByteFirst
  intro s i dst b0 b1 b2 b3 alt hsched hrun hrem hpos herr hi
  refine ⟨_, wordOfBytes_toNat b0 b1 b2 b3, ?_⟩
  rw [run_dispatch 17 hsched hrun hrem hpos hi (exec_ldw_of_absent _ dst _), loadEndpoint,
    ← withReg_regValue (countDown _) i, started_withReg_eq_receiving]
  refine Eq.trans (run_receiveWord _ i _ b0 b1 b2 b3 alt rfl herr) ?_
  rw [hrun]
  rfl

/-- Settles O49: the handler clears the slot and starts the receive, and `run_receiveHalf` is the rest of the run. -/
theorem loadHalfWordReceivesZeroExtended : Obligations.LoadHalfWordReceivesZeroExtended := by
  unfold Obligations.LoadHalfWordReceivesZeroExtended
  intro s i dst b0 b1 alt hsched hrun hrem hpos herr hi
  have hvalue : (wordOfBytes b0 b1 0#8 0#8).toNat = b0.toNat + 256 * b1.toNat := by simp [wordOfBytes_toNat]
  refine ⟨_, hvalue, ?_⟩
  rw [run_dispatch 9 hsched hrun hrem hpos hi (exec_ldh_of_absent _ dst _), loadEndpoint, started_withReg_eq_receiving]
  refine Eq.trans (run_receiveHalf _ i b0 b1 alt rfl herr) ?_
  rw [hrun]
  rfl

end Sys2Proof.Machine
end

section
/-! The arithmetic, logic, shift and unlock-transform instructions (43_arithmetic.md): the value each computes as a
number, the equation of its handler in the statements' words, and the statement. -/

namespace Sys2Proof.Machine

/-- The shape these handlers share: the slot takes a function of its own value, and the program goes on (R13, R76). -/
theorem advance_wr_rd_eq_continued (reg : RegId) (f : Word → Word) (s : State) :
    advance (wr reg (f (rd s reg)) s) = continued (withReg s reg (f (regValue s reg))) := by
  rw [rd_eq_regValue, advance_wr_eq_continued]

/-! ### ADD -/

/-- The sum with the delta, sign-extended, is the sum of integers modulo 2^32 (R54, R115). -/
theorem add_addDelta_toNat (w : Word) (delta : Half) :
    ((w + addDelta delta).toNat : Int) = (w.toNat + delta.toInt) % 4294967296 := by
  have hdelta : ((addDelta delta).toNat : Int) = delta.toInt % 4294967296 := by
    rw [addDelta, BitVec.signExtend, BitVec.toNat_ofInt]
    exact Int.toNat_of_nonneg (Int.emod_nonneg _ (by decide))
  rw [BitVec.toNat_add]
  omega

/-- The handler of `ADD`, in the statements' words (R115). -/
theorem exec_add (reg : RegId) (delta : Half) (s : State) :
    exec (.add reg delta) s = .next (continued (withReg s reg (regValue s reg + addDelta delta))) :=
  congrArg Host.Outcome.next (advance_wr_rd_eq_continued reg (· + addDelta delta) s)

/-- Settles O22: the number the statement gives determines the word, which is the sum with the sign-extended delta. -/
theorem addIsSignedDeltaModulo : Obligations.AddIsSignedDeltaModulo := by
  unfold Obligations.AddIsSignedDeltaModulo
  refine ⟨fun r hkind => by simp only [decodeRecord_eq, hkind], fun s reg delta v hv => ?_⟩
  have hsum : v = regValue s reg + addDelta delta :=
    BitVec.eq_of_toNat_eq (Int.ofNat_inj.1 (hv.trans (add_addDelta_toNat _ delta).symm))
  rw [exec_add, hsum]

/-! ### AND -/

/-- The mask the statements name is the operand the machine forms (R116, R140). -/
theorem maskAt_iff (s : State) (ref v : Word) : MaskAt s.mem ref v ↔ v = maskOperand s ref := by
  unfold MaskAt maskOperand
  by_cases habsent : ref = 0#32
  · have hpresent : ¬ present ref = true := fun h => (present_iff ref).1 h habsent
    rw [if_neg hpresent]
    simp [habsent, Config.defaultMask]
  · simp [habsent, (present_iff ref).2 habsent, wordAt_iff]

/-- The handler of `AND`, in the statements' words (R116). -/
theorem exec_and (reg : RegId) (src : Word) (s : State) :
    exec (.and reg src) s = .next (continued (withReg s reg (regValue s reg &&& maskOperand s src))) :=
  congrArg Host.Outcome.next (advance_wr_rd_eq_continued reg (· &&& maskOperand s src) s)

/-- Settles O23: the mask is the operand the machine forms, and the 32 bits determine the word. -/
theorem andMasksWithTheWordInMemory : Obligations.AndMasksWithTheWordInMemory := by
  unfold Obligations.AndMasksWithTheWordInMemory
  refine ⟨fun r hkind => by simp only [decodeRecord_eq, hkind], fun s reg src m v hm hv => ?_⟩
  obtain rfl : m = maskOperand s src := (maskAt_iff s src m).1 hm
  have hmasked : v = regValue s reg &&& maskOperand s src :=
    BitVec.eq_of_getLsbD_eq fun k hk => by rw [hv k hk, BitVec.getLsbD_and, Bool.and_comm]
  rw [exec_and, hmasked]

/-! ### SHR and SHL -/

/-- The logical right shift as a number (R117, R119). -/
theorem shiftRight_toNat (w : Word) (amount : Half) :
    (shiftRight w amount).toNat = if amount.toNat < 32 then w.toNat / 2 ^ amount.toNat else 0 := by
  unfold shiftRight
  by_cases hlt : amount.toNat < 32
  · rw [if_pos hlt, if_neg (by omega), BitVec.toNat_ushiftRight, Nat.shiftRight_eq_div_pow]
  · rw [if_neg hlt, if_pos (by omega)]
    rfl

/-- The logical left shift as a number (R118, R119). -/
theorem shiftLeft_toNat (w : Word) (amount : Half) :
    (shiftLeft w amount).toNat = if amount.toNat < 32 then w.toNat * 2 ^ amount.toNat % 4294967296 else 0 := by
  unfold shiftLeft
  by_cases hlt : amount.toNat < 32
  · rw [if_pos hlt, if_neg (by omega), BitVec.toNat_shiftLeft, Nat.shiftLeft_eq]
  · rw [if_neg hlt, if_pos (by omega)]
    rfl

/-- The handler of `SHR`, in the statements' words (R117). -/
theorem exec_shr (reg : RegId) (amount : Half) (s : State) :
    exec (.shr reg amount) s = .next (continued (withReg s reg (shiftRight (regValue s reg) amount))) :=
  congrArg Host.Outcome.next (advance_wr_rd_eq_continued reg (shiftRight · amount) s)

/-- The handler of `SHL`, in the statements' words (R118). -/
theorem exec_shl (reg : RegId) (amount : Half) (s : State) :
    exec (.shl reg amount) s = .next (continued (withReg s reg (shiftLeft (regValue s reg) amount))) :=
  congrArg Host.Outcome.next (advance_wr_rd_eq_continued reg (shiftLeft · amount) s)

/-- Settles O24: the number the statement gives is that of the logical right shift. -/
theorem shiftRightIsLogical : Obligations.ShiftRightIsLogical := by
  unfold Obligations.ShiftRightIsLogical
  refine ⟨fun r hkind => by simp only [decodeRecord_eq, hkind], fun s reg amount v hv => ?_⟩
  have hshifted : v = shiftRight (regValue s reg) amount :=
    BitVec.eq_of_toNat_eq (hv.trans (shiftRight_toNat _ amount).symm)
  rw [exec_shr, hshifted]

/-- Settles O25: the number the statement gives is that of the logical left shift. -/
theorem shiftLeftDropsHighBits : Obligations.ShiftLeftDropsHighBits := by
  unfold Obligations.ShiftLeftDropsHighBits
  refine ⟨fun r hkind => by simp only [decodeRecord_eq, hkind], fun s reg amount v hv => ?_⟩
  have hshifted : v = shiftLeft (regValue s reg) amount :=
    BitVec.eq_of_toNat_eq (hv.trans (shiftLeft_toNat _ amount).symm)
  rw [exec_shl, hshifted]

/-! ### UNLK -/

/-- The unlock transform as a number: 256 divides 2^32, so the carry out of the word does not reach the low byte
(R121). -/
theorem unlock_toNat (w : Word) : (unlock w).toNat = (w.toNat + 1) % 256 * 256 + w.toNat / 256 % 256 := by
  have hlow : ((w + 1#32).extractLsb' 0 8).toNat = (w.toNat + 1) % 256 := by
    rw [BitVec.extractLsb'_toNat, BitVec.toNat_add, Nat.shiftRight_zero]
    exact Nat.mod_mod_of_dvd _ (by decide)
  have hhigh : (w.extractLsb' 8 8).toNat = w.toNat / 256 % 256 := byteOfWord_toNat w 1
  unfold unlock
  rw [BitVec.toNat_setWidth, BitVec.toNat_append, ← Nat.shiftLeft_add_eq_or_of_lt (BitVec.isLt _), hlow, hhigh,
    Nat.shiftLeft_eq]
  omega

/-- The handler of `UNLK`, in the statements' words (R121). -/
theorem exec_unlk (reg : RegId) (s : State) :
    exec (.unlk reg) s = .next (continued (withReg s reg (unlock (regValue s reg)))) :=
  congrArg Host.Outcome.next (advance_wr_rd_eq_continued reg unlock s)

/-- Settles O26: the number the statement gives is that of the unlock transform. -/
theorem unlockTransformFormula : Obligations.UnlockTransformFormula := by
  unfold Obligations.UnlockTransformFormula
  refine ⟨fun r hkind => by simp only [decodeRecord_eq, hkind], fun s reg v hv => ?_⟩
  have hunlocked : v = unlock (regValue s reg) := BitVec.eq_of_toNat_eq (hv.trans (unlock_toNat _).symm)
  rw [exec_unlk, hunlocked]

end Sys2Proof.Machine
end

section
/-! The branch and jump instructions (44_control.md): where a taken jump leads, the equation of each handler, and
the statement. -/

namespace Sys2Proof.Machine

/-! ### BR, BRZ and BRNZ -/

/-- The handler of `BR`, in the statements' words (R131, R134). -/
theorem exec_br (count : Half) (target : Word) (s : State) :
    exec (.br count target) s = .next (branched s count target) :=
  congrArg Host.Outcome.next (takeBranch_eq_branched count target s)

/-- Settles O27: `BR` takes its branch whatever the slot held. -/
theorem branchSavesTheReturnPoint : Obligations.BranchSavesTheReturnPoint := by
  unfold Obligations.BranchSavesTheReturnPoint
  exact ⟨fun r hkind => by simp only [decodeRecord_eq, hkind], fun s count target => exec_br count target s⟩

/-- The conditional branches test the whole register, read as the statements read it (R13, R130). -/
theorem isZero_branchTest_iff (s : State) (reg : RegId) :
    isZero (branchTest s reg) = true ↔ (regValue s reg).toNat = 0 := by
  rw [branchTest, rd_eq_regValue, isZero_iff]

/-- The handler of `BRZ`: the test chooses between going on and leaving (R132). -/
theorem exec_brz (reg : RegId) (count : Half) (target : Word) (s : State) :
    exec (.brz reg count target) s =
      if isZero (branchTest s reg) then .next (branched s count target) else .next (continued s) := rfl

/-- Settles O28: the register's value splits the handler of `BRZ`. -/
theorem branchIfZeroTestsTheWholeRegister : Obligations.BranchIfZeroTestsTheWholeRegister := by
  unfold Obligations.BranchIfZeroTestsTheWholeRegister
  refine ⟨fun r hkind => by simp only [decodeRecord_eq, hkind], fun s reg count target => ⟨?taken, ?untaken⟩⟩
  case taken =>
    intro hzero
    rw [exec_brz, if_pos ((isZero_branchTest_iff s reg).2 hzero)]
  case untaken =>
    intro hne
    rw [exec_brz, if_neg (mt (isZero_branchTest_iff s reg).1 hne)]

/-- The handler of `BRNZ`: the test chooses between going on and leaving (R133). -/
theorem exec_brnz (reg : RegId) (count : Half) (target : Word) (s : State) :
    exec (.brnz reg count target) s =
      if isZero (branchTest s reg) then .next (continued s) else .next (branched s count target) := rfl

/-- Settles O29: the register's value splits the handler of `BRNZ`. -/
theorem branchIfNonzeroTestsTheWholeRegister : Obligations.BranchIfNonzeroTestsTheWholeRegister := by
  unfold Obligations.BranchIfNonzeroTestsTheWholeRegister
  refine ⟨fun r hkind => by simp only [decodeRecord_eq, hkind], fun s reg count target => ⟨?taken, ?untaken⟩⟩
  case taken =>
    intro hne
    rw [exec_brnz, if_neg (mt (isZero_branchTest_iff s reg).1 hne)]
  case untaken =>
    intro hzero
    rw [exec_brnz, if_pos ((isZero_branchTest_iff s reg).2 hzero)]

/-! ### JMP -/

/-- A distance sign-extended to a word is its integer modulo 2^32 (R54, R138). -/
theorem signExtend_dist_toNat (dist : Half) :
    ((dist.signExtend 32).toNat : Int) = dist.toInt % 4294967296 := by
  simpa [addDelta] using add_addDelta_toNat 0#32 dist

/-- A position moved by whole records is the sum of integers modulo 2^32 (R138). -/
theorem pos_jump_toNat (p : Word) (dist : Half) :
    ((p + 12#32 * dist.signExtend 32).toNat : Int) = (p.toNat + 12 * dist.toInt) % 4294967296 := by
  have hdist := signExtend_dist_toNat dist
  rw [BitVec.toNat_add, BitVec.toNat_mul, BitVec.toNat_ofNat]
  omega

/-- The count after a jump is the difference of integers modulo 2^16, read as signed (R15, R138). -/
theorem rem_jump_toInt (c dist : Half) :
    (c - (dist - 1#16)).toInt = (c.toInt - (dist.toInt - 1)).bmod 65536 := by
  rw [BitVec.toInt_sub, BitVec.toInt_sub]
  exact Int.sub_bmod_bmod

/-- A taken jump leads where the statements say: each outcome of `TakeJump` is the clause of its own distance (R138,
R139). -/
theorem jumpTaken_takeJump (dist : Half) (s : State) : JumpTaken dist s (takeJump dist s) := by
  have hfinish : dist.toInt = 32767 ↔ dist = 0x7FFF#16 := BitVec.toInt_inj (y := 0x7FFF#16)
  have hfail : dist.toInt = -32768 ↔ dist = 0x8000#16 := BitVec.toInt_inj (y := 0x8000#16)
  unfold JumpTaken
  rw [ne_eq, ne_eq, hfinish, hfail]
  rcases takeJump_cases dist s with ⟨hd, ht⟩ | ⟨hd, ht⟩ | ⟨hnotFinish, hnotFail, ht⟩
  · exact ⟨fun _ => ht, fun h => absurd (hd.symm.trans h) (by decide), fun h => absurd hd h⟩
  · exact ⟨fun h => absurd (hd.symm.trans h) (by decide), fun _ => ht, fun _ h => absurd hd h⟩
  · refine ⟨fun h => absurd h hnotFinish, fun h => absurd h hnotFail, fun _ _ => ?_⟩
    rw [ht]
    exact ⟨rfl, pos_jump_toNat s.pos dist, rem_jump_toInt s.rem dist⟩

/-- `JMP` takes its jump, whatever the state (R135). -/
theorem exec_jmp (dist : Half) (s : State) : exec (.jmp dist) s = .next (takeJump dist s) := rfl

/-- Settles O30: `JMP` takes its jump, and the jump leads where the statement says. -/
theorem jumpMovesByWholeRecords : Obligations.JumpMovesByWholeRecords := by
  unfold Obligations.JumpMovesByWholeRecords
  exact ⟨fun r hkind => by simp only [decodeRecord_eq, hkind], fun s dist =>
    ⟨_, exec_jmp dist s, jumpTaken_takeJump dist s⟩⟩

/-! ### JZ and JNZ -/

/-- Words with no bit in common, are those whose conjunction tests as zero (R130). -/
theorem isZero_and_iff (v m : Word) :
    isZero (v &&& m) = true ↔ ∀ k, k < 32 → (v.getLsbD k && m.getLsbD k) = false := by
  have hbits : v &&& m = 0#32 ↔ ∀ k, k < 32 → (v &&& m).getLsbD k = (0#32).getLsbD k :=
    BitVec.eq_of_getLsbD_eq_iff
  simpa [isZero] using hbits

/-- The conditional jumps test the register, read as the statements read it, under the mask the statements name (R13,
R130, R140). -/
theorem isZero_jumpTest_iff {s : State} {mask m : Word} (hm : MaskAt s.mem mask m) (reg : RegId) :
    isZero (jumpTest s reg mask) = true ↔ ∀ k, k < 32 → ((regValue s reg).getLsbD k && m.getLsbD k) = false := by
  rw [jumpTest, rd_eq_regValue, ← (maskAt_iff s mask m).1 hm, isZero_and_iff]

/-- One bit in common makes the test fail (R130). -/
theorem not_isZero_jumpTest {s : State} {mask m : Word} (hm : MaskAt s.mem mask m) {reg : RegId}
    (hbit : ∃ k, k < 32 ∧ ((regValue s reg).getLsbD k && m.getLsbD k) = true) :
    ¬ isZero (jumpTest s reg mask) = true := by
  obtain ⟨k, hk, hset⟩ := hbit
  intro hzero
  exact Bool.eq_false_iff.1 ((isZero_jumpTest_iff hm reg).1 hzero k hk) hset

/-- The handler of `JZ`: the test chooses between going on and leaving (R136). -/
theorem exec_jz (reg : RegId) (dist : Half) (mask : Word) (s : State) :
    exec (.jz reg dist mask) s =
      if isZero (jumpTest s reg mask) then .next (takeJump dist s) else .next (continued s) := rfl

/-- Settles O31: the masked register splits the handler of `JZ`; the distance counts only when the jump is taken. -/
theorem jumpIfZeroTestsUnderTheMask : Obligations.JumpIfZeroTestsUnderTheMask := by
  unfold Obligations.JumpIfZeroTestsUnderTheMask
  refine ⟨fun r hkind => by simp only [decodeRecord_eq, hkind], fun s reg dist mask m hm => ⟨?taken, ?untaken⟩⟩
  case taken =>
    intro hclear
    exact ⟨_, by rw [exec_jz, if_pos ((isZero_jumpTest_iff hm reg).2 hclear)], jumpTaken_takeJump dist s⟩
  case untaken =>
    intro hbit
    rw [exec_jz, if_neg (not_isZero_jumpTest hm hbit)]

/-- The handler of `JNZ`: the test chooses between going on and leaving (R137). -/
theorem exec_jnz (reg : RegId) (dist : Half) (mask : Word) (s : State) :
    exec (.jnz reg dist mask) s =
      if isZero (jumpTest s reg mask) then .next (continued s) else .next (takeJump dist s) := rfl

/-- Settles O32: the masked register splits the handler of `JNZ`; the distance counts only when the jump is taken. -/
theorem jumpIfNonzeroTestsUnderTheMask : Obligations.JumpIfNonzeroTestsUnderTheMask := by
  unfold Obligations.JumpIfNonzeroTestsUnderTheMask
  refine ⟨fun r hkind => by simp only [decodeRecord_eq, hkind], fun s reg dist mask m hm => ⟨?taken, ?untaken⟩⟩
  case taken =>
    intro hbit
    exact ⟨_, by rw [exec_jnz, if_neg (not_isZero_jumpTest hm hbit)], jumpTaken_takeJump dist s⟩
  case untaken =>
    intro hclear
    rw [exec_jnz, if_pos ((isZero_jumpTest_iff hm reg).2 hclear)]

end Sys2Proof.Machine
end

section
/-! The host's submit, accepted when the block is idle and rejected when it is busy (R151, R152). -/

namespace Sys2Proof.Machine

theorem submit_of_idle {s : State} (p : Address) (c : Half) (hidle : s.status = .idle) :
    submit p c s = emit .submitOk (acceptSubmit p c s) := by
  simp only [submit, hidle]

theorem submit_of_busy {s : State} (p : Address) (c : Half) (hbusy : s.status = .busy) :
    submit p c s = emit .submitBusy s := by
  simp only [submit, hbusy]

/-- Settles O36: an idle block takes the accepting branch, whose writes are the listed ones. -/
theorem submitWhenIdleIsAccepted : Obligations.SubmitWhenIdleIsAccepted := by
  unfold Obligations.SubmitWhenIdleIsAccepted
  intro s s0 p c hnext hidle
  have hstep : step s = .next (submit p c s0) := step_of_turnNext hnext
  obtain ⟨r, rfl⟩ := turnNext_fields hnext
  rw [submit_of_idle (s := { s with sched := r }) p c hidle] at hstep
  exact ⟨_, hstep, rfl, rfl, rfl, rfl, rfl, rfl, rfl, rfl, rfl, rfl⟩

/-- Settles O37: a busy block takes the rejecting branch, which only answers. -/
theorem submitWhenBusyChangesNothing : Obligations.SubmitWhenBusyChangesNothing := by
  unfold Obligations.SubmitWhenBusyChangesNothing
  intro s s0 p c hnext hbusy
  have hstep : step s = .next (submit p c s0) := step_of_turnNext hnext
  obtain ⟨r, rfl⟩ := turnNext_fields hnext
  rw [submit_of_busy (s := { s with sched := r }) p c hbusy] at hstep
  exact ⟨_, hstep, rfl, rfl⟩

end Sys2Proof.Machine
end

section
/-! The Transfer Engine's completion: what it does before and after the last byte, alone and with an error (R164, R181,
R182). -/

namespace Sys2Proof.Machine

/-- In WAIT an error counted since the SUBMIT makes the completion end the program (R181). -/
theorem takeDone_of_error {s : State} (hwait : s.phase = .wait) (herr : s.errCnt ≠ s.errBase) :
    takeDone s = ended { s with inflight := none } .error .transferHardwareError := by
  simp only [takeDone, hwait, if_neg herr]
  rfl

/-- Outside WAIT the block ignores a completion (R181). -/
theorem takeDone_of_not_wait {s : State} (hwait : s.phase ≠ .wait) : takeDone s = s := by
  rcases takeDone_cases s with ⟨h, -⟩ | ⟨h, -⟩ | ⟨-, h⟩
  · exact absurd h hwait
  · exact absurd h hwait
  · exact h

/-- The completion gate reads and moves the block's fields only, not the Transfer Engine's job. -/
theorem takeDone_te (s : State) : (takeDone s).te = s.te :=
  takeDone_keeps State.te terminate_te (fun _ _ _ => rfl) s

theorem teDone_of_allMoved {s : State} {j : Job} (hte : s.te = some j) (hmoved : AllMoved j) :
    teDone s = takeDone { s with te := none } :=
  teDone_of_finished hte ((finished_iff_allMoved j).2 hmoved)

/-- Without a job, or with a byte still to move, the Transfer Engine does not complete (R164). -/
theorem teDone_of_not_allMoved {s : State} (h : ∀ j, s.te = some j → ¬AllMoved j) : teDone s = s := by
  rcases teDone_cases s with ⟨j, hte, hfin, -⟩ | ⟨-, hpass⟩
  · exact absurd ((finished_iff_allMoved j).1 hfin) (h j hte)
  · exact hpass

/-- The completion of a job whose bytes have all moved ends the job. -/
theorem teDone_te_of_allMoved {s : State} {j : Job} (hte : s.te = some j) (hmoved : AllMoved j) :
    (teDone s).te = none := by
  rw [teDone_of_allMoved hte hmoved, takeDone_te]

theorem teErr_te (s : State) : (teErr s).te = s.te.map fun j => { j with erred := true } := rfl

/-- An error marks the job and keeps the transfer it was asked for. -/
theorem teErr_req (s : State) : (teErr s).te.map Job.req = s.te.map Job.req := by
  cases h : s.te <;> simp [teErr_te, h]

/-- Which bytes of a job have moved does not depend on its error mark. -/
theorem exists_allMoved_teErr_iff (s : State) :
    (∃ j, (teErr s).te = some j ∧ AllMoved j) ↔ ∃ j, s.te = some j ∧ AllMoved j := by
  cases h : s.te <;> simp [teErr_te, h, AllMoved]

/-- Settles O41: the completion of a moved job is the gate's, on the state without the job. -/
theorem completionGatesTheScheduler : Obligations.CompletionGatesTheScheduler := by
  unfold Obligations.CompletionGatesTheScheduler
  refine ⟨rfl, fun s s0 j hnext hte hmoved => ?_⟩
  have hstep : step s = .next (teDone s0) := step_of_turnNext hnext
  obtain ⟨r, rfl⟩ := turnNext_fields hnext
  rw [hstep, teDone_of_allMoved (s := { s with sched := r }) hte hmoved]
  refine ⟨fun hwait herr => ?_, fun hwait herr => ?_, fun hwait => ?_⟩
  · exact congrArg _ (takeDone_of_wait hwait herr)
  · exact congrArg _ (takeDone_of_error hwait herr)
  · exact congrArg _ (takeDone_of_not_wait hwait)

/-- Settles O44: the completion ends a moved job and passes before, and an error does not change which it is. -/
theorem completionWaitsForTheLastByte : Obligations.CompletionWaitsForTheLastByte := by
  unfold Obligations.CompletionWaitsForTheLastByte
  intro s s0 t turn hturn hnext hstep
  rw [step_of_turnNext hnext] at hstep
  obtain ⟨r, rfl⟩ := turnNext_fields hnext
  rcases hturn with rfl | rfl <;> obtain rfl := Host.Outcome.next.inj hstep
  case inl =>
    refine ⟨?_, fun hnot => ⟨fun _ => teDone_of_not_allMoved hnot, by simp⟩⟩
    rintro ⟨j, hte, hmoved⟩
    exact teDone_te_of_allMoved (s := { s with sched := r }) hte hmoved
  case inr =>
    have hmark := exists_allMoved_teErr_iff { s with sched := r }
    refine ⟨fun hall => ?_, fun hnot => ⟨by simp, fun _ => ?_⟩⟩
    · obtain ⟨j, hte, hmoved⟩ := hmark.2 hall
      exact teDone_te_of_allMoved hte hmoved
    · have hpass : teDone (teErr { s with sched := r }) = teErr { s with sched := r } := by
        refine teDone_of_not_allMoved fun j hte hmoved => ?_
        obtain ⟨i, hi, himoved⟩ := hmark.1 ⟨j, hte, hmoved⟩
        exact hnot i hi himoved
      rw [hpass]
      exact ⟨rfl, teErr_req _, rfl⟩

end Sys2Proof.Machine
end

section
/-! The bytes of a transfer: where a byte that is sent comes from, and where a received one lands (R161). -/

namespace Sys2Proof.Machine

/-- The byte a transmit endpoint gives is fixed by the endpoint's kind: the byte at `a + k`, bits `8k+7:8k` of the slot,
or 0x00 (R161). -/
theorem endpointByte_eq {s : State} {e : Endpoint} {k : Nat} {b : Byte}
    (hmem : ∀ a, e = .mem a → b = s.mem.read (a + BitVec.ofNat 32 k))
    (hreg : ∀ i, e = .reg i → b.toNat = (regValue s (.slot i)).toNat / 2 ^ (8 * k) % 256)
    (habsent : e = .absent → b = 0x00#8) : endpointByte s e k = b := by
  cases e with
  | absent => exact (habsent rfl).symm
  | mem a => exact (hmem a rfl).symm
  | reg i =>
    apply BitVec.eq_of_toNat_eq
    rw [hreg i rfl, regValue_slot]
    exact byteOfWord_toNat (s.slot i) k

/-- While no error was raised, the byte to send next is the one taken at the next index (R161). -/
theorem Job.nextByte_of_not_erred {j : Job} (alt : Byte) (herr : j.erred = false) :
    j.nextByte alt = j.taken.lookup j.sent := by
  simp [Job.nextByte, herr]

/-- A send whose byte is not there yet passes. -/
theorem teSend_of_no_byte {s : State} {j : Job} {alt : Byte} (hte : s.te = some j) (hnone : j.nextByte alt = none) :
    teSend alt s = s := by
  simp [teSend, hte, hnone]

/-- The step from `s` to `t` puts no byte on the link: the trace did not grow by one. -/
def SendsNoByte (s t : State) : Prop := ∀ k b, t.trace ≠ .tx k b :: s.trace

theorem sendsNoByte_of_trace_eq {s t : State} (h : t.trace = s.trace) : SendsNoByte s t := by
  intro k b ht
  exact List.cons_ne_self _ _ (ht.symm.trans h)

theorem sendsNoByte_of_trace_cons {s t : State} {o : Output} (h : t.trace = o :: s.trace)
    (ho : ∀ k b, o ≠ .tx k b) : SendsNoByte s t := by
  intro k b ht
  exact ho k b (List.cons_eq_cons.1 (h.symm.trans ht)).1

theorem terminate_sendsNoByte (o : Result) (k : ErrKind) (s : State) : SendsNoByte s (terminate o k s) :=
  sendsNoByte_of_trace_cons (terminate_trace o k s) (by simp)

theorem handlerStep_sendsNoByte {i : Instr} {s t : State} (h : HandlerStep i s t) : SendsNoByte s t := by
  cases h with
  | register _ _ _ ht => exact sendsNoByte_of_trace_eq (by simp [ht])
  | goOn ht => exact sendsNoByte_of_trace_eq (by simp [ht])
  | toggle _ _ _ _ ht => exact sendsNoByte_of_trace_eq (by simp [ht])
  | store _ _ ht => exact sendsNoByte_of_trace_eq (by simp [ht])
  | start _ _ _ _ ht => exact sendsNoByte_of_trace_eq (by simp [ht])
  | toggleStart _ _ _ _ _ _ _ _ _ ht => exact sendsNoByte_of_trace_eq (by simp [ht])
  | clearStart _ _ _ _ _ _ ht => exact sendsNoByte_of_trace_eq (by simp [ht])
  | branch _ _ _ ht => exact sendsNoByte_of_trace_eq (by simp [ht])
  | jump ht =>
    rcases takeJump_cases (distance i) s with ⟨-, hj⟩ | ⟨-, hj⟩ | ⟨-, -, hj⟩
    · exact ht ▸ hj ▸ terminate_sendsNoByte _ _ s
    · exact ht ▸ hj ▸ terminate_sendsNoByte _ _ s
    · exact sendsNoByte_of_trace_eq (by rw [ht, hj])
  | badRegister ht => exact ht ▸ terminate_sendsNoByte _ _ s

theorem interpreterStep_sendsNoByte {s t : State} (h : InterpreterStep s t) : SendsNoByte s t := by
  cases h with
  | passes _ ht => exact sendsNoByte_of_trace_eq (by rw [ht])
  | returns _ ht => exact sendsNoByte_of_trace_eq (by simp [ht])
  | ends o k _ _ ht => exact ht ▸ terminate_sendsNoByte o k s
  | handles i _ _ _ _ hh => exact handlerStep_sendsNoByte (s := countDown s) hh

theorem takeDone_sendsNoByte (s : State) : SendsNoByte s (takeDone s) := by
  rcases takeDone_cases s with ⟨-, -, h⟩ | ⟨-, -, h⟩ | ⟨-, h⟩ <;> rw [h]
  · exact sendsNoByte_of_trace_eq rfl
  · exact terminate_sendsNoByte _ _ { s with inflight := none }
  · exact sendsNoByte_of_trace_eq rfl

theorem teDone_sendsNoByte (s : State) : SendsNoByte s (teDone s) := by
  rcases teDone_cases s with ⟨j, -, -, h⟩ | ⟨-, h⟩ <;> rw [h]
  · exact takeDone_sendsNoByte { s with te := none }
  · exact sendsNoByte_of_trace_eq rfl

theorem submit_sendsNoByte (p : Address) (c : Half) (s : State) : SendsNoByte s (submit p c s) := by
  rcases submit_cases p c s with ⟨-, h⟩ | ⟨-, h⟩
  · exact sendsNoByte_of_trace_cons (by simp [h]) (o := .submitOk) (by simp)
  · exact sendsNoByte_of_trace_cons (by simp [h]) (o := .submitBusy) (by simp)

theorem teTake_sendsNoByte (k : Nat) (s : State) : SendsNoByte s (teTake k s) := by
  rcases teTake_cases k s with ⟨j, -, -, -, h⟩ | h <;> exact sendsNoByte_of_trace_eq (by rw [h])

theorem teReceive_sendsNoByte (rx : Byte) (s : State) : SendsNoByte s (teReceive rx s) := by
  rcases teReceive_cases rx s with ⟨j, -, -, h⟩ | h <;> exact sendsNoByte_of_trace_eq (by rw [h])

theorem teStore_sendsNoByte (k : Nat) (s : State) : SendsNoByte s (teStore k s) := by
  rcases teStore_cases k s with ⟨j, b, -, -, -, h⟩ | h <;> rw [h]
  · exact sendsNoByte_of_trace_eq (putEndpointByte_keeps State.trace (fun _ _ => rfl) setSlot_trace _ _ _ _)
  · exact sendsNoByte_of_trace_eq rfl

/-- Of the turns of the agents beside the interpreter only the Transfer Engine's send puts a byte on the link. -/
theorem takeTurn_sendsNoByte {turn : Turn} {s t : State} (hdispatch : turn ≠ .dispatch)
    (hsend : ∀ alt, turn ≠ .teSend alt) (h : takeTurn turn s = .next t) : SendsNoByte s t := by
  cases turn with
  | dispatch => exact absurd rfl hdispatch
  | teSend alt => exact absurd rfl (hsend alt)
  | submit p c => exact Host.Outcome.next.inj h ▸ submit_sendsNoByte p c s
  | poll => exact Host.Outcome.next.inj h ▸ sendsNoByte_of_trace_cons (emit_trace _ s) (by simp)
  | hostWrite a b => exact Host.Outcome.next.inj h ▸ sendsNoByte_of_trace_eq rfl
  | teTake k => exact Host.Outcome.next.inj h ▸ teTake_sendsNoByte k s
  | teReceive rx => exact Host.Outcome.next.inj h ▸ teReceive_sendsNoByte rx s
  | teStore k => exact Host.Outcome.next.inj h ▸ teStore_sendsNoByte k s
  | teDone => exact Host.Outcome.next.inj h ▸ teDone_sendsNoByte s
  | teErr => exact Host.Outcome.next.inj h ▸ sendsNoByte_of_trace_eq rfl
  | teErrDone => exact Host.Outcome.next.inj h ▸ teDone_sendsNoByte (teErr s)
  | strayDone => exact Host.Outcome.next.inj h ▸ takeDone_sendsNoByte s
  | reset => exact Host.Outcome.next.inj h ▸ sendsNoByte_of_trace_eq rfl
  | teReset => exact Host.Outcome.next.inj h ▸ sendsNoByte_of_trace_eq rfl

/-- A step that puts a byte on the link is a send, of the next index of its job, below the count (R161). -/
theorem step_sends_next {s t : State} {k : Nat} {b : Byte} (h : step s = .next t)
    (htx : t.trace = .tx k b :: s.trace) :
    ∃ j, s.te = some j ∧ k = j.sent ∧ k < j.req.n.toNat ∧ t.te = some { j with sent := k + 1 } := by
  rcases step_cases s with ⟨s0, hnext, hs⟩ | ⟨turn, s0, hturn, hnext, hs⟩
  · obtain ⟨r, rfl⟩ := interpreterNext_fields hnext
    exact absurd htx (interpreterStep_sendsNoByte (interpreterTurn_next (hs.symm.trans h)) k b)
  · obtain ⟨r, rfl⟩ := turnNext_fields hnext
    by_cases hsend : ∃ alt, turn = .teSend alt
    · obtain ⟨alt, rfl⟩ := hsend
      obtain rfl := Host.Outcome.next.inj (hs.symm.trans h)
      rcases teSend_cases alt { s with sched := r } with ⟨j, b', hte, hlt, -, hsent⟩ | hpass
      · rw [hsent] at htx ⊢
        obtain ⟨rfl, -⟩ := Output.tx.inj (List.cons_eq_cons.1 htx).1
        exact ⟨j, hte, rfl, hlt, rfl⟩
      · exact absurd htx (sendsNoByte_of_trace_eq (s := s) (by rw [hpass]) k b)
    · exact absurd htx (takeTurn_sendsNoByte hturn (not_exists.1 hsend) (hs.symm.trans h) k b)

/-- Settles O45: a take reads the endpoint, a send takes the next index from what was taken, and no other turn sends. -/
theorem transmittedBytesComeFromTheEndpointInOrder : Obligations.TransmittedBytesComeFromTheEndpointInOrder := by
  unfold Obligations.TransmittedBytesComeFromTheEndpointInOrder
  refine ⟨?take, ?send, fun s t k b hstep htx => step_sends_next hstep htx⟩
  case take =>
    intro s s0 k b j hnext hte hk hnew hmem hreg habsent
    have hstep : step s = .next (teTake k s0) := step_of_turnNext hnext
    obtain ⟨r, rfl⟩ := turnNext_fields hnext
    have hbyte : endpointByte { s with sched := r } j.req.src k = b := endpointByte_eq hmem hreg habsent
    rw [hstep, teTake_of_new (s := { s with sched := r }) hte hk hnew, hbyte]
  case send =>
    intro s s0 alt j hnext hte herr hlt
    have hstep : step s = .next (teSend alt s0) := step_of_turnNext hnext
    obtain ⟨r, rfl⟩ := turnNext_fields hnext
    have hbyte := Job.nextByte_of_not_erred alt herr
    refine ⟨fun b hb => ?_, fun hnone => ?_⟩
    · rw [hstep, teSend_of_next (s := { s with sched := r }) hte hlt (hbyte.trans hb)]
      rfl
    · rw [hstep, teSend_of_no_byte (s := { s with sched := r }) hte (hbyte.trans hnone)]

/-- Settles O46: a receive appends to what arrived, and a store is one write of memory at `a + k`. -/
theorem receivedBytesArriveInOrderAndLandInMemory : Obligations.ReceivedBytesArriveInOrderAndLandInMemory := by
  unfold Obligations.ReceivedBytesArriveInOrderAndLandInMemory
  refine ⟨?receive, ?store⟩
  case receive =>
    intro s s0 rx j hnext hte hlt
    have hstep : step s = .next (teReceive rx s0) := step_of_turnNext hnext
    obtain ⟨r, rfl⟩ := turnNext_fields hnext
    rw [hstep, teReceive_of_room (s := { s with sched := r }) rx hte hlt]
  case store =>
    intro s s0 k b j a hnext hte hdst hb hnew hwf
    have hstep : step s = .next (teStore k s0) := step_of_turnNext hnext
    obtain ⟨r, rfl⟩ := turnNext_fields hnext
    rw [teStore_of_arrived (s := { s with sched := r }) hte hb hnew, hdst] at hstep
    exact ⟨_, hstep, rfl, fun x => Memory.read_write hwf (a + BitVec.ofNat 32 k) x b⟩

end Sys2Proof.Machine
end

section
/-! A transfer of zero bytes keeps the block waiting (R93, R167). -/

namespace Sys2Proof.Machine

/-- What the wait for a transfer shows in: PHASE, STATUS, the transfer the Transfer Engine was asked for and the turns
to come. -/
def waitView (s : State) : Phase × Status × Option Transfer × List Turn :=
  (s.phase, s.status, s.te.map Job.req, s.sched)

/-- The view of a state whose Transfer Engine goes on with the same transfer. -/
theorem waitView_job {s : State} {j j' : Job} (hte : s.te = some j) (hreq : j'.req = j.req) :
    waitView { s with te := some j' } = waitView s := by
  simp [waitView, hte, hreq]

theorem waitView_teTake (k : Nat) (s : State) : waitView (teTake k s) = waitView s := by
  rcases teTake_cases k s with ⟨j, hte, -, -, h⟩ | h <;> rw [h]
  exact waitView_job hte rfl

theorem waitView_teSend (alt : Byte) (s : State) : waitView (teSend alt s) = waitView s := by
  rcases teSend_cases alt s with ⟨j, b, hte, -, -, h⟩ | h <;> rw [h]
  exact waitView_job hte rfl

theorem waitView_teReceive (rx : Byte) (s : State) : waitView (teReceive rx s) = waitView s := by
  rcases teReceive_cases rx s with ⟨j, hte, -, h⟩ | h <;> rw [h]
  exact waitView_job hte rfl

theorem waitView_teStore (k : Nat) (s : State) : waitView (teStore k s) = waitView s := by
  rcases teStore_cases k s with ⟨j, b, hte, -, -, h⟩ | h <;> rw [h]
  rw [putEndpointByte_keeps waitView (fun _ _ => rfl) (fun u i v => by simp [waitView])]
  exact waitView_job hte rfl

theorem waitView_teErr (s : State) : waitView (teErr s) = waitView s :=
  congrArg (fun req => (s.phase, s.status, req, s.sched)) (teErr_req s)

/-- A turn that neither resets nor brings a completion the Transfer Engine guarantees not to raise (R166, R200). -/
def KeepsGuarantee (turn : Turn) : Prop := turn ≠ .strayDone ∧ turn ≠ .reset ∧ turn ≠ .teReset

/-- The block waits, busy, for a transfer of zero bytes, and no turn to come is a reset or a forbidden completion. -/
structure ZeroByteWait (s : State) : Prop where
  phase : s.phase = .wait
  status : s.status = .busy
  job : ∃ req, s.te.map Job.req = some req ∧ req.n = 0#16
  turns : ∀ turn ∈ s.sched, KeepsGuarantee turn

/-- The wait shows in the view alone. -/
theorem ZeroByteWait.of_waitView_eq {s t : State} (h : ZeroByteWait s) (heq : waitView t = waitView s) :
    ZeroByteWait t := by
  simp only [waitView, Prod.mk.injEq] at heq
  obtain ⟨hphase, hstatus, hjob, hsched⟩ := heq
  exact ⟨hphase.trans h.phase, hstatus.trans h.status, hjob ▸ h.job, hsched ▸ h.turns⟩

/-- A job of zero bytes has no last byte that could move (R167). -/
theorem ZeroByteWait.not_allMoved {s : State} (h : ZeroByteWait s) : ∀ j, s.te = some j → ¬AllMoved j := by
  rintro j hte ⟨hpos, -⟩
  obtain ⟨req, hreq, hzero⟩ := h.job
  rw [hte, Option.map_some, Option.some_inj] at hreq
  exact hpos (hreq ▸ hzero)

/-- The interpreter has no step in WAIT (R71). -/
theorem ZeroByteWait.interpreter_passes {s : State} (h : ZeroByteWait s) : interpreterTurn s = .next s := by
  simp only [interpreterTurn, h.phase]

/-- No turn that keeps the guarantee ends the wait or the job: the completion alone passes, and with an error it only
counts the error (R164, R180). -/
theorem ZeroByteWait.takeTurn_keeps {s : State} (h : ZeroByteWait s) {turn : Turn} (hturn : KeepsGuarantee turn) :
    ∃ t, takeTurn turn s = .next t ∧ ZeroByteWait t := by
  obtain ⟨hstray, hreset, hteReset⟩ := hturn
  have herr : ZeroByteWait (teErr s) := h.of_waitView_eq (waitView_teErr s)
  cases turn with
  | dispatch => exact ⟨s, h.interpreter_passes, h⟩
  | submit p c => exact ⟨_, rfl, submit_of_busy p c h.status ▸ h.of_waitView_eq rfl⟩
  | poll => exact ⟨_, rfl, h.of_waitView_eq rfl⟩
  | hostWrite a b => exact ⟨_, rfl, h.of_waitView_eq rfl⟩
  | teTake k => exact ⟨_, rfl, h.of_waitView_eq (waitView_teTake k s)⟩
  | teSend alt => exact ⟨_, rfl, h.of_waitView_eq (waitView_teSend alt s)⟩
  | teReceive rx => exact ⟨_, rfl, h.of_waitView_eq (waitView_teReceive rx s)⟩
  | teStore k => exact ⟨_, rfl, h.of_waitView_eq (waitView_teStore k s)⟩
  | teDone => exact ⟨_, rfl, (teDone_of_not_allMoved h.not_allMoved).symm ▸ h⟩
  | teErr => exact ⟨_, rfl, herr⟩
  | teErrDone => exact ⟨_, rfl, (teDone_of_not_allMoved herr.not_allMoved).symm ▸ herr⟩
  | strayDone => exact absurd rfl hstray
  | reset => exact absurd rfl hreset
  | teReset => exact absurd rfl hteReset

/-- Every step keeps the wait for zero bytes. -/
theorem ZeroByteWait.step_keeps {s : State} (h : ZeroByteWait s) : ∃ t, step s = .next t ∧ ZeroByteWait t := by
  cases hsched : s.sched with
  | nil => exact ⟨s, (step_of_interpreterNext (.inl ⟨hsched, rfl⟩)).trans h.interpreter_passes, h⟩
  | cons turn rest =>
    have hturns : ∀ u ∈ turn :: rest, KeepsGuarantee u := hsched ▸ h.turns
    have hrest : ZeroByteWait { s with sched := rest } :=
      ⟨h.phase, h.status, h.job, fun u hu => hturns u (List.mem_cons_of_mem turn hu)⟩
    obtain ⟨t, ht, hwait⟩ := hrest.takeTurn_keeps (hturns turn List.mem_cons_self)
    exact ⟨t, (step_of_turnNext ⟨rest, hsched, rfl⟩).trans ht, hwait⟩

/-- Every run keeps the wait for zero bytes. -/
theorem ZeroByteWait.run_keeps {k : Nat} {s t : State} (h : ZeroByteWait s) (hrun : core.run k s = .next t) :
    ZeroByteWait t := by
  induction k generalizing s with
  | zero => exact Host.Outcome.next.inj hrun ▸ h
  | succ k ih =>
    obtain ⟨u, hu, hwait⟩ := h.step_keeps
    exact ih hwait ((run_succ k s u hu).symm.trans hrun)

/-- Settles O50: by the invariant the waiting block is busy, and every step of the run keeps `ZeroByteWait`. -/
theorem zeroByteTransferNeverCompletes : Obligations.ZeroByteTransferNeverCompletes := by
  unfold Obligations.ZeroByteTransferNeverCompletes
  intro k s t j hinv hwait hte hzero hturns hrun
  obtain ⟨-, hbusy, -⟩ := hinv
  have hstart : ZeroByteWait s := ⟨hwait, hbusy.2 (by simp [hwait]), ⟨j.req, by simp [hte], hzero⟩, hturns⟩
  have hend := hstart.run_keeps hrun
  obtain ⟨req, hreq, -⟩ := hend.job
  exact ⟨hend.phase, hend.status, fun hnone => by simp [hnone] at hreq⟩

end Sys2Proof.Machine
end

section
/-! The events of the Transfer Engine: an error alone, a completion from anywhere, and an error that comes with the
completion (R180 to R182). -/

namespace Sys2Proof.Machine

/-- An error event counts one, leaves the rest of the block and marks the job (R180, U9). -/
theorem teErr_of_job {s : State} {j : Job} (hte : s.te = some j) :
    teErr s = { s with errCnt := s.errCnt + 1#32, te := some { j with erred := true } } := by
  simp [teErr, takeErr, hte]

/-- A moved job's completion that brings an error finds it already counted, so in WAIT it ends the program (R182). -/
theorem teDone_teErr_of_allMoved {s : State} {j : Job} (hwait : s.phase = .wait) (herr : s.errCnt = s.errBase)
    (hte : s.te = some j) (hmoved : AllMoved j) :
    teDone (teErr s) =
      ended { s with errCnt := s.errCnt + 1#32, te := none, inflight := none } .error .transferHardwareError := by
  have hcounted : s.errCnt + 1#32 ≠ s.errBase := by simp [herr]
  have hmarked : AllMoved { j with erred := true } := hmoved
  rw [teErr_of_job hte, teDone_of_allMoved rfl hmarked]
  exact takeDone_of_error hwait hcounted

/-- Settles O40: the error event is one addition to the counter, and the rest of the block is as it was. -/
theorem errorEventOnlyCounts : Obligations.ErrorEventOnlyCounts := by
  unfold Obligations.ErrorEventOnlyCounts
  intro s s0 hnext
  have hstep : step s = .next (teErr s0) := step_of_turnNext hnext
  obtain ⟨r, rfl⟩ := turnNext_fields hnext
  exact ⟨_, hstep, BitVec.toNat_add s.errCnt 1#32, rfl⟩

/-- Settles O42: a stray completion is the gate itself, whose three cases are those of the phase and the count. -/
theorem anyCompletionEventIsTakenByThePhase : Obligations.AnyCompletionEventIsTakenByThePhase := by
  unfold Obligations.AnyCompletionEventIsTakenByThePhase
  intro s s0 hnext
  have hstep : step s = .next (takeDone s0) := step_of_turnNext hnext
  obtain ⟨r, rfl⟩ := turnNext_fields hnext
  rw [hstep]
  refine ⟨fun hwait herr => ?_, fun hwait herr => ?_, fun hwait => ?_⟩
  · exact congrArg _ (takeDone_of_wait hwait herr)
  · exact congrArg _ (takeDone_of_error hwait herr)
  · exact congrArg _ (takeDone_of_not_wait hwait)

/-- Settles O43: the completion follows the error, whose count differs from the base it equalled before. -/
theorem errorWithCompletionIsCountedFirst : Obligations.ErrorWithCompletionIsCountedFirst := by
  unfold Obligations.ErrorWithCompletionIsCountedFirst
  intro s s0 j hnext hwait herr hte hmoved
  have hstep : step s = .next (teDone (teErr s0)) := step_of_turnNext hnext
  obtain ⟨r, rfl⟩ := turnNext_fields hnext
  exact hstep.trans (congrArg _ (teDone_teErr_of_allMoved hwait herr hte hmoved))

end Sys2Proof.Machine
end
